-- ==== Sys2Proof/Word.lean ====
section
/-! DEFINITION. The word types of CORE: text bytes, host words, limb vectors, value register numbers. -/

namespace Sys2Proof

/-- One byte of the text buffer (10_state.md R25). -/
abbrev Byte := BitVec 8

/-- The 32 bits of the host data path and of a command word (00_scope.md R8, 30_encoding.md R70). -/
abbrev HostWord := BitVec 32

/-- A limb vector, limb 0 first. A limb is an unsigned number below `2^W`; `W` is a parameter of the
machine, so the bound is a predicate and not a type (00_scope.md R11). -/
abbrev LimbVec := List Nat

/-- A value register number: every 4-bit value names one of the sixteen (30_encoding.md R71). -/
abbrev Reg := Fin 16

end Sys2Proof
end

