-- ==== Sys2Proof/Syntax.lean ====
section
/-! DEFINITION. The nine commands of CORE and the three actions of the host. -/

namespace Sys2Proof

/-- A command, one constructor per row of the opcode map (30_encoding.md R72), its operands in the order
of the assembler syntax (R80): destinations first, then sources. -/
inductive Instr where
  /-- `CMP va, vb` (41_comparator.md R111) -/
  | cmp (va vb : Reg)
  /-- `ADD vd, va, vb` (42_additive.md R126) -/
  | add (vd va vb : Reg)
  /-- `NEG vd, va` (42_additive.md R127) -/
  | neg (vd va : Reg)
  /-- `SUB vd, va, vb` (42_additive.md R128) -/
  | sub (vd va vb : Reg)
  /-- `MUL vd, va, vb` (43_multiplicative.md R142) -/
  | mul (vd va vb : Reg)
  /-- `DIVMOD vq, vr, va, vb` (44_divisive.md R154) -/
  | divmod (vq vr va vb : Reg)
  /-- `LDI vd` (45_construction_conversion.md R171) -/
  | ldi (vd : Reg)
  /-- `PARSE vd` (45_construction_conversion.md R175) -/
  | parse (vd : Reg)
  /-- `FMT va` (45_construction_conversion.md R181) -/
  | fmt (va : Reg)
  deriving DecidableEq, Repr

/-- What the host can do to CORE, one action at a time (20_memory.md R55, 70_reset_and_hazards.md R220).
A host register number is below `2^32`. -/
inductive HostAction where
  /-- `HostWrite(r, d)` -/
  | write (r : BitVec 32) (d : HostWord)
  /-- `HostRead(r)` -/
  | read (r : BitVec 32)
  /-- reset -/
  | reset
  deriving DecidableEq, Repr

end Sys2Proof
end

