-- ==== Sys2Proof/WellFormed.lean ====
section
/-! DEFINITION. Which commands have a legal word. Register numbers are in range by their type, so the one
check is that DIVMOD's two destinations differ (30_encoding.md R76). -/

namespace Sys2Proof

/-- The command has a legal word: DIVMOD sends its two results to two registers (30_encoding.md R76). -/
def Instr.wellFormed : Instr → Bool
  | .cmp _ _ => true
  | .add _ _ _ => true
  | .neg _ _ => true
  | .sub _ _ _ => true
  | .mul _ _ _ => true
  | .divmod vq vr _ _ => vq != vr
  | .ldi _ => true
  | .parse _ => true
  | .fmt _ => true

end Sys2Proof
end

