-- ==== Sys2Proof/Decode.lean ====
section
/-! DEFINITION. From command words to commands and back (30_encoding.md R70 to R80). -/

namespace Sys2Proof

/-! ## The fields of the one format (30_encoding.md R71) -/

/-- bits 7:0, the opcode -/
def opField (w : HostWord) : BitVec 8 := w.extractLsb' 0 8

/-- bits 11:8, the destination (for DIVMOD the quotient's) -/
def vdField (w : HostWord) : Reg := (w.extractLsb' 8 4).toFin

/-- bits 15:12, the first source -/
def vaField (w : HostWord) : Reg := (w.extractLsb' 12 4).toFin

/-- bits 19:16, the second source -/
def vbField (w : HostWord) : Reg := (w.extractLsb' 16 4).toFin

/-- bits 23:20, the remainder destination of DIVMOD -/
def vrField (w : HostWord) : Reg := (w.extractLsb' 20 4).toFin

/-- bits 31:24, which must be zero -/
def zField (w : HostWord) : BitVec 8 := w.extractLsb' 24 8

/-- Why a command word is illegal. Every one of these raises IllegalCommand (60_exceptions.md R202). -/
inductive DecodeError where
  /-- `z` is nonzero (30_encoding.md R74) -/
  | mustBeZero
  /-- a register field that the command does not use is nonzero (R74) -/
  | unusedField
  /-- the opcode is none of `0x01` to `0x09` (R75) -/
  | unknownOpcode
  /-- DIVMOD with `vd = vr` (R76) -/
  | sameDestination
  deriving DecidableEq, Repr

/-- The command a word stands for, or why it is illegal, by the checks of 30_encoding.md R79 in their
order. -/
def decode (w : HostWord) : Except DecodeError Instr :=
  let vd := vdField w
  let va := vaField w
  let vb := vbField w
  let vr := vrField w
  if zField w ≠ 0 then .error .mustBeZero
  else match (opField w).toNat with
    | 0x01 => if vd ≠ 0 ∨ vr ≠ 0 then .error .unusedField else .ok (.cmp va vb)
    | 0x02 => if vr ≠ 0 then .error .unusedField else .ok (.add vd va vb)
    | 0x03 => if vb ≠ 0 ∨ vr ≠ 0 then .error .unusedField else .ok (.neg vd va)
    | 0x04 => if vr ≠ 0 then .error .unusedField else .ok (.sub vd va vb)
    | 0x05 => if vr ≠ 0 then .error .unusedField else .ok (.mul vd va vb)
    | 0x06 => if vd = vr then .error .sameDestination else .ok (.divmod vd vr va vb)
    | 0x07 => if va ≠ 0 ∨ vb ≠ 0 ∨ vr ≠ 0 then .error .unusedField else .ok (.ldi vd)
    | 0x08 => if va ≠ 0 ∨ vb ≠ 0 ∨ vr ≠ 0 then .error .unusedField else .ok (.parse vd)
    | 0x09 => if vd ≠ 0 ∨ vb ≠ 0 ∨ vr ≠ 0 then .error .unusedField else .ok (.fmt va)
    | _ => .error .unknownOpcode

/-! ## The encoder (30_encoding.md R71, R80) -/

/-- The word with the given fields and `z = 0`:
`op + vd*2^8 + va*2^12 + vb*2^16 + vr*2^20` (R71). -/
def commandWord (op : Nat) (vd va vb vr : Reg) : HostWord :=
  BitVec.ofNat 32 (op + vd.val * 2 ^ 8 + va.val * 2 ^ 12 + vb.val * 2 ^ 16 + vr.val * 2 ^ 20)

/-- The word of a command (R80). -/
def encode : Instr → HostWord
  | .cmp va vb => commandWord 0x01 0 va vb 0
  | .add vd va vb => commandWord 0x02 vd va vb 0
  | .neg vd va => commandWord 0x03 vd va 0 0
  | .sub vd va vb => commandWord 0x04 vd va vb 0
  | .mul vd va vb => commandWord 0x05 vd va vb 0
  | .divmod vq vr va vb => commandWord 0x06 vq va vb vr
  | .ldi vd => commandWord 0x07 vd 0 0 0
  | .parse vd => commandWord 0x08 vd 0 0 0
  | .fmt va => commandWord 0x09 0 va 0 0

/-- The opcode of a command (R72). -/
def opcode : Instr → Nat
  | .cmp _ _ => 0x01
  | .add _ _ _ => 0x02
  | .neg _ _ => 0x03
  | .sub _ _ _ => 0x04
  | .mul _ _ _ => 0x05
  | .divmod _ _ _ _ => 0x06
  | .ldi _ => 0x07
  | .parse _ => 0x08
  | .fmt _ => 0x09

/-- A command in the assembler syntax of R80. -/
def assembly : Instr → String
  | .cmp va vb => "CMP " ++ regName va ++ ", " ++ regName vb
  | .add vd va vb => "ADD " ++ regName vd ++ ", " ++ regName va ++ ", " ++ regName vb
  | .neg vd va => "NEG " ++ regName vd ++ ", " ++ regName va
  | .sub vd va vb => "SUB " ++ regName vd ++ ", " ++ regName va ++ ", " ++ regName vb
  | .mul vd va vb => "MUL " ++ regName vd ++ ", " ++ regName va ++ ", " ++ regName vb
  | .divmod vq vr va vb =>
    "DIVMOD " ++ regName vq ++ ", " ++ regName vr ++ ", " ++ regName va ++ ", " ++ regName vb
  | .ldi vd => "LDI " ++ regName vd
  | .parse vd => "PARSE " ++ regName vd
  | .fmt va => "FMT " ++ regName va
where
  /-- A register is written `v0` to `v15` (R80). -/
  regName (r : Reg) : String := "v" ++ toString r.val

/-- The command that the decoder reads from a table row's bits: a command word is one host word, so a
number of more than 32 bits is no command (30_encoding.md R70). -/
def decodeTableWord (nbits w : Nat) : Option Instr :=
  let bits := w % 2 ^ nbits
  if bits < 2 ^ 32 then (decode (BitVec.ofNat 32 bits)).toOption else none

end Sys2Proof
end

