-- ==== Sys2Proof/Config.lean ====
section
/-! DEFINITION. The parameters of one CORE: `N`, `W`, `TCAP`, their constraints, and what is derived
from them (00_scope.md R5, R6, R7, R9). The spec leaves no value open, so there is no free value here
(70_reset_and_hazards.md R227: "the model has no draws and no oracle"). -/

namespace Sys2Proof

/-- How many decimal digits `n` has, counting at most `fuel` of them (0 for `n = 0`). -/
def decimalLength : Nat → Nat → Nat
  | 0, _ => 0
  | fuel + 1, n => if n = 0 then 0 else 1 + decimalLength fuel (n / 10)

/-- `DMAX(N)`, the number of decimal digits of `2^(N-1)` (00_scope.md R9). `N` digits are enough to
count, since `2^(N-1) < 10^N`. -/
def dmax (N : Nat) : Nat := decimalLength N (2 ^ (N - 1))

/-- One configuration of CORE. The constraints stand in the structure, so that a configuration the spec
refuses (93_implementation_defined.md I2, I15) cannot be built. DESIGN CHOICE, log entry 6, safe. -/
structure Config where
  /-- the bit width of a Value (R5) -/
  N : Nat
  /-- the limb width in bits (R6) -/
  W : Nat
  /-- the capacity of the text buffer in bytes (R9) -/
  TCAP : Nat
  four_le_N : 4 ≤ N
  one_le_W : 1 ≤ W
  text_fits : 1 + dmax N ≤ TCAP
  TCAP_le : TCAP ≤ 65535
  deriving DecidableEq, Repr

/-- The number of limbs, `ceil(N / W)` (R6). -/
def Config.L (c : Config) : Nat := (c.N + c.W - 1) / c.W

/-- The number of pad bits, `L*W - N` (R6). -/
def Config.P (c : Config) : Nat := c.L * c.W - c.N

/-- The spec's reference configuration (R7). -/
def Config.reference : Config where
  N := 200
  W := 32
  TCAP := 64
  four_le_N := by decide
  one_le_W := by decide
  text_fits := by decide +kernel
  TCAP_le := by decide

/-- The spec's CFG-A, with no pad bits (R7). -/
def Config.cfgA : Config where
  N := 8
  W := 4
  TCAP := 8
  four_le_N := by decide
  one_le_W := by decide
  text_fits := by decide +kernel
  TCAP_le := by decide

/-- The spec's CFG-B, with four pad bits (R7). -/
def Config.cfgB : Config where
  N := 12
  W := 8
  TCAP := 8
  four_le_N := by decide
  one_le_W := by decide
  text_fits := by decide +kernel
  TCAP_le := by decide

end Sys2Proof
end

