-- ==== Sys2Proof/Machine/Limbs.lean ====
section
/-! DEFINITION. Limb vectors, the numbers they stand for, and the Storage & Sign functions
(00_scope.md R11 to R13, 40_storage_sign.md R90 to R99). -/

namespace Sys2Proof.Machine

/-! ## Limb vectors (00_scope.md R11) -/

/-- `x.limb[i]`. A limb that is not there reads as 0 (DESIGN CHOICE, log entry 7). -/
def limbAt (x : LimbVec) (i : Nat) : Nat := x.getD i 0

/-- `nat(x)`, the sum of `x.limb[i] * 2^(W*i)`. -/
def natOf (c : Config) : LimbVec → Nat
  | [] => 0
  | l :: x => l + 2 ^ c.W * natOf c x

/-- `limbs_K(n)`, the limb vector of length `K` with `nat = n` (for `n < 2^(K*W)`). -/
def limbsOf (c : Config) : Nat → Nat → LimbVec
  | 0, _ => []
  | K + 1, n => n % 2 ^ c.W :: limbsOf c K (n / 2 ^ c.W)

/-- `bit(x, k)`. -/
def bitAt (c : Config) (x : LimbVec) (k : Nat) : Nat := limbAt x (k / c.W) / 2 ^ (k % c.W) % 2

/-- `x` with bit `k` set to `b` (0 or 1). -/
def setBit (c : Config) (x : LimbVec) (k b : Nat) : LimbVec :=
  x.set (k / c.W) (limbAt x (k / c.W) - bitAt c x k * 2 ^ (k % c.W) + b * 2 ^ (k % c.W))

/-! ## The signed reading (00_scope.md R12, R13) -/

/-- `u_N(x)`, the low `N` bits as a number. -/
def uN (c : Config) (x : LimbVec) : Nat := natOf c x % 2 ^ c.N

/-- `sval(x)`, the low `N` bits read as a two's-complement signed integer. -/
def sval (c : Config) (x : LimbVec) : Int :=
  if bitAt c x (c.N - 1) = 0 then (uN c x : Int) else (uN c x : Int) - 2 ^ c.N

/-- `MIN = -2^(N-1)`. -/
def minInt (c : Config) : Int := -2 ^ (c.N - 1)

/-- `MAX = 2^(N-1) - 1`. -/
def maxInt (c : Config) : Int := 2 ^ (c.N - 1) - 1

/-- `wrap_N(z)`, the canonical Value congruent to `z` modulo `2^N`, by the two cases of R13. -/
def wrapN (c : Config) (z : Int) : LimbVec :=
  let u := (z % 2 ^ c.N).toNat
  if u < 2 ^ (c.N - 1) then limbsOf c c.L u else limbsOf c c.L (u + 2 ^ (c.L * c.W) - 2 ^ c.N)

/-- `sext_K(v)` of 00_scope.md R14 for the `K`-bit pattern `v`. -/
def sext (K v : Nat) : Int := if v < 2 ^ (K - 1) then (v : Int) else (v : Int) - 2 ^ K

/-! ## Canonical form (40_storage_sign.md R91, R92) -/

/-- The positions of the pad bits, `N` to `L*W - 1`. -/
def padBits (c : Config) : List Nat := List.range' c.N c.P

/-- `x` is a limb vector of length `L`: that many limbs, each below `2^W` (00_scope.md R11). -/
def isLimbVec (c : Config) (x : LimbVec) : Bool := x.length == c.L && x.all (· < 2 ^ c.W)

/-- `x` is a canonical Value: a limb vector of length `L` whose pad bits all equal bit `N-1` (R91). -/
def canonical (c : Config) (x : LimbVec) : Bool :=
  isLimbVec c x && (padBits c).all fun k => bitAt c x k == bitAt c x (c.N - 1)

/-- `norm_N(x)`: every pad bit replaced by bit `N-1` (R92). -/
def normN (c : Config) (x : LimbVec) : LimbVec :=
  (padBits c).foldl (fun r k => setBit c r k (bitAt c x (c.N - 1))) x

/-- `zpad_N(x)`: every pad bit replaced by 0 (R92). -/
def zpadN (c : Config) (x : LimbVec) : LimbVec :=
  (padBits c).foldl (fun r k => setBit c r k 0) x

/-! ## The negator core, sign and magnitude (40_storage_sign.md R94, R95, R96, R99) -/

/-- The limb loop of `twos_raw`, with the carry that comes in (R99). -/
def twosLoop (c : Config) : Nat → LimbVec → LimbVec
  | _, [] => []
  | carry, l :: x =>
    let t := 2 ^ c.W - 1 - l + carry
    t % 2 ^ c.W :: twosLoop c (t / 2 ^ c.W) x

/-- `twos_raw(x)`: complement every limb, add 1, discard the carry out of the top limb (R99). -/
def twosRaw (c : Config) (x : LimbVec) : LimbVec := twosLoop c 1 x

/-- `is_negative(v)`, the most significant bit of the top limb (R94). -/
def isNegative (c : Config) (x : LimbVec) : Bool := bitAt c x (c.L * c.W - 1) == 1

/-- `magnitude(v)`, a limb vector to be read unsigned (R95). -/
def magnitude (c : Config) (x : LimbVec) : LimbVec := if isNegative c x then twosRaw c x else x

/-- `from_magnitude_and_sign(m, neg)` (R96). -/
def fromMagnitudeAndSign (c : Config) (m : LimbVec) (neg : Bool) : LimbVec :=
  let t := limbsOf c c.L (natOf c m % 2 ^ c.N)
  normN c (if neg then twosRaw c t else t)

end Sys2Proof.Machine
end

