-- ==== Sys2Proof/Machine/State.lean ====
section
/-! DEFINITION. The state of CORE as plain data, its value after reset, and the ways a step can stop. -/

namespace Sys2Proof.Machine

/-- The text buffer's contents: (index, byte) pairs with strictly rising indices, and no pair whose byte is
`0x00`, which is what an unlisted byte reads as (its reset value, 10_state.md R25, R33). Log entry 11. -/
abbrev Memory := List Host.Cell

/-- The three fatal conditions (60_exceptions.md R201, R202, R207). -/
inductive Cause where
  | divisionByZero
  | illegalCommand
  | textLength
  deriving DecidableEq, Repr

/-- The fields of STATUS (10_state.md R26). Its bits 31:7 are no state: they read as zero. -/
structure Status where
  /-- `FAULT`, STATUS bit 0 (R30) -/
  fault : Bool
  /-- `FCAUSE`, STATUS bits 3:1 (R30) -/
  fcause : BitVec 3
  /-- `PERR`, STATUS bit 4 (R29) -/
  perr : Bool
  /-- `CMP`, STATUS bits 6:5 (R28) -/
  cmp : BitVec 2
  deriving DecidableEq, Repr

/-- Ways the MODEL stops. The spec's own fatal conditions are no stops: they are next states with
STATUS.FAULT set (60_exceptions.md R204). -/
inductive Fault where
  /-- Raised by FMT (and by the byte reads of PARSE) for a text access at an index at or above `TCAP`.
  20_memory.md R50: "No command issues an access with `i >= TCAP`"; it happens only in a state with a
  value register that is not canonical, which no run reaches. Safe. DEDUCED, log entry 9. -/
  | textBeyondCapacity
  deriving DecidableEq, Repr

/-- Ways the model declines. -/
inductive Refusal where
  /-- Raised by `exec` for a command without a meaning, by its mnemonic. No arm raises it: every command
  of the opcode map has its meaning. Safe. -/
  | notModelled (mnemonic : String)
  deriving DecidableEq, Repr

/-- Everything the spec gives the machine (10_state.md R33), and three fields of the model's own: the
configuration of this unit (log entry 1), the host's transactions still to come (log entry 2) and the data
that host reads returned (log entry 3). -/
structure State where
  /-- The configuration: it stands here because a step takes no other argument, and no step changes it
  (10_state.md R34, 70_reset_and_hazards.md R221). DESIGN CHOICE, log entry 1. -/
  cfg : Config
  /-- `V[0]` to `V[15]` (10_state.md R20) -/
  v : Vector LimbVec 16
  /-- `IMM`, 128 bits (10_state.md R23) -/
  imm : BitVec 128
  /-- `TLEN`, 16 bits (10_state.md R24) -/
  tlen : BitVec 16
  /-- `TXT`, `TCAP` bytes (10_state.md R25) -/
  txt : Memory
  /-- `STATUS` (10_state.md R26) -/
  status : Status
  /-- The host's transactions still to be performed, first to be performed first
  (70_reset_and_hazards.md R228). DESIGN CHOICE, log entry 2. -/
  pending : List HostAction
  /-- What every `HostRead` so far returned, oldest first (70_reset_and_hazards.md R228).
  DESIGN CHOICE, log entry 3. -/
  returned : List HostWord
  deriving DecidableEq, Repr

/-- STATUS after reset: every field 0 (10_state.md R33). -/
def Status.reset : Status := { fault := false, fcause := 0, perr := false, cmp := 0 }

/-- A CORE of configuration `c` right after reset, with no host transaction pending (10_state.md R33). -/
def State.resetOf (c : Config) : State where
  cfg := c
  v := Vector.replicate 16 (List.replicate c.L 0)
  imm := 0
  tlen := 0
  txt := []
  status := Status.reset
  pending := []
  returned := []

/-- CORE right after reset. Its configuration is the spec's reference configuration
(00_scope.md R7). DESIGN CHOICE, log entry 1. -/
def State.reset : State := State.resetOf Config.reference

end Sys2Proof.Machine
end

