-- ==== Sys2Proof/Machine/Flags.lean ====
section
/-! DEFINITION. The flags of STATUS: how each is written and how the host reads the whole register
(10_state.md R26, R28, R29, R30). CORE has no carry, overflow, zero or sign flag (R30). -/

namespace Sys2Proof.Machine

/-- The document's three outcomes of a comparison (41_comparator.md R110). -/
inductive Comparison where
  | less
  | equal
  | greater
  deriving DecidableEq, Repr

/-- The encoding of STATUS.CMP (10_state.md R28). -/
def Comparison.code : Comparison → BitVec 2
  | .equal => 0b00
  | .less => 0b01
  | .greater => 0b10

/-- The cause codes of STATUS.FCAUSE (10_state.md R30). -/
def Cause.code : Cause → BitVec 3
  | .divisionByZero => 1
  | .illegalCommand => 2
  | .textLength => 3

/-- A bit as a bit vector, 1 for true. -/
def flagBit (b : Bool) : BitVec 1 := if b then 1 else 0

/-- The 32 bits the host reads from STATUS; bits 31:7 are zero (10_state.md R26). -/
def Status.word (t : Status) : HostWord :=
  ((0 : BitVec 25) ++ t.cmp ++ flagBit t.perr ++ t.fcause ++ flagBit t.fault)

/-- STATUS after CMP (10_state.md R28): the other fields keep their values. -/
def State.setCmp (s : State) (r : Comparison) : State :=
  { s with status := { s.status with cmp := r.code } }

/-- STATUS after a PARSE that does not fault (10_state.md R29): the other fields keep their values. -/
def State.setPerr (s : State) (b : Bool) : State :=
  { s with status := { s.status with perr := b } }

end Sys2Proof.Machine
end

