-- ==== Sys2Proof/Machine/Ops.lean ====
section
/-! DEFINITION. The named operations over memory and registers, fault entry, and the return from the fault
state, which is reset. -/

namespace Sys2Proof.Machine

/-! ## The text buffer as a list of cells -/

/-- What an unlisted byte reads as: the reset value of a text byte (10_state.md R25, R33). -/
def unlistedByte : Byte := 0x00

/-- The byte at index `i`. -/
def Memory.read : Memory → Nat → Byte
  | [], _ => unlistedByte
  | (a, b) :: m, i => if i = a then b else Memory.read m i

/-- The cells with index `i` first, if its byte must be listed. -/
def consCell (i : Nat) (b : Byte) (m : Memory) : Memory :=
  if b = unlistedByte then m else (i, b) :: m

/-- The buffer with byte `b` at index `i`, in canonical form. -/
def Memory.write : Memory → Nat → Byte → Memory
  | [], i, b => consCell i b []
  | (a, b') :: m, i, b =>
    if i < a then consCell i b ((a, b') :: m)
    else if i = a then consCell i b m
    else (a, b') :: Memory.write m i b

/-- Every index of `m` is above `lo`, and `m` is in canonical form. -/
def Memory.wfAbove : Nat → Memory → Bool
  | _, [] => true
  | lo, (a, b) :: m => decide (lo < a) && b != unlistedByte && Memory.wfAbove a m

/-- The canonical form: indices strictly rising, no listed byte equal to the unlisted one. -/
def Memory.wf : Memory → Bool
  | [] => true
  | (a, b) :: m => b != unlistedByte && Memory.wfAbove a m

/-- Every listed index is below `n`. -/
def Memory.below (m : Memory) (n : Nat) : Bool := m.all fun cell => cell.1 < n

/-! ## Memory accesses (20_memory.md R50) -/

/-- `MemRead(i, 1)`. -/
def State.memRead (s : State) (i : Nat) : Except Fault Byte :=
  if i < s.cfg.TCAP then .ok (s.txt.read i) else .error .textBeyondCapacity

/-- `MemWrite(i, 1, b)`. -/
def State.memWrite (s : State) (i : Nat) (b : Byte) : Except Fault State :=
  if i < s.cfg.TCAP then .ok { s with txt := s.txt.write i b } else .error .textBeyondCapacity

/-- The `n` bytes from index `i` on, read in rising order. -/
def State.readText (s : State) : Nat → Nat → Except Fault (List Byte)
  | _, 0 => .ok []
  | i, n + 1 =>
    match s.memRead i with
    | .error e => .error e
    | .ok b =>
      match s.readText (i + 1) n with
      | .error e => .error e
      | .ok bs => .ok (b :: bs)

/-- The bytes written from index `i` on, in rising order. -/
def State.writeText (s : State) : Nat → List Byte → Except Fault State
  | _, [] => .ok s
  | i, b :: bs =>
    match s.memWrite i b with
    | .error e => .error e
    | .ok s' => s'.writeText (i + 1) bs

/-! ## Registers (10_state.md R20, R23, R24) -/

/-- `V[r]`. -/
def State.readV (s : State) (r : Reg) : LimbVec := s.v[r]

/-- `V[r] <- x`. -/
def State.writeV (s : State) (r : Reg) (x : LimbVec) : State := { s with v := s.v.set r x }

/-- `TLEN <- n`. -/
def State.setTlen (s : State) (n : BitVec 16) : State := { s with tlen := n }

/-- `IMM0` to `IMM3`: bits `32*i + 31` down to `32*i` of IMM (10_state.md R23, 20_memory.md R52). -/
def immWord (imm : BitVec 128) (i : Fin 4) : HostWord := imm.extractLsb' (32 * i.val) 32

/-- IMM with `IMM i` replaced: `IMM3 ++ IMM2 ++ IMM1 ++ IMM0` (10_state.md R23). -/
def setImmWord (imm : BitVec 128) (i : Fin 4) (d : HostWord) : BitVec 128 :=
  let word (j : Fin 4) : HostWord := if j = i then d else immWord imm j
  word 3 ++ word 2 ++ word 1 ++ word 0

/-! ## Fault entry and reset -/

/-- `raise <Fault>`: STATUS.FAULT becomes 1 and STATUS.FCAUSE the cause code, and nothing else is
written (60_exceptions.md R204). There is no handler and nothing is saved (R204). -/
def State.raiseFault (s : State) (e : Cause) : State :=
  { s with status := { s.status with fault := true, fcause := e.code } }

/-- Reset, the only way out of the fault state (70_reset_and_hazards.md R220): every piece of the spec's
state takes its reset value. The configuration is not changed (R221). The host's pending transactions and
the data it has been returned are the host's, not CORE's. DEDUCED, log entry 5. -/
def State.applyReset (s : State) : State :=
  { State.resetOf s.cfg with pending := s.pending, returned := s.returned }

end Sys2Proof.Machine
end

