-- ==== Sys2Proof/Machine/Operands.lean ====
section
/-! DEFINITION. Every operand form of the commands: value registers (`State.readV`, `State.writeV` of
Ops.lean), the immediate of LDI, the text of PARSE and the text destination of FMT
(30_encoding.md R77). -/

namespace Sys2Proof.Machine

/-- The operand of LDI: IMM read whole as a two's-complement integer, `sext_128(IMM)` (R77). -/
def State.immOperand (s : State) : Int := sext 128 s.imm.toNat

/-- The operand of PARSE: the bytes `TXT[0..TLEN-1]` (R77). -/
def State.textOperand (s : State) : Except Fault (List Byte) := s.readText 0 s.tlen.toNat

/-- The destination of FMT: the bytes go to `TXT[0..k-1]` and their number `k` to TLEN
(45_construction_conversion.md R181). -/
def State.writeTextResult (s : State) (out : List Byte) : Except Fault State :=
  match s.writeText 0 out with
  | .error e => .error e
  | .ok s' => .ok (s'.setTlen (BitVec.ofNat 16 out.length))

end Sys2Proof.Machine
end

