-- ==== Sys2Proof/Machine/Comparator.lean ====
section
/-! DEFINITION. The comparator and CMP (41_comparator.md). -/

namespace Sys2Proof.Machine

/-- Limbs compared as unsigned numbers, the most significant first, which is the first of the list. -/
def compareLimbs : LimbVec → LimbVec → Comparison
  | x :: xs, y :: ys =>
    if x < y then .less else if x > y then .greater else compareLimbs xs ys
  | _, _ => .equal

/-- `ucompare(x, y)`: the loop from limb `L-1` down to limb 0 (R113). -/
def ucompare (x y : LimbVec) : Comparison := compareLimbs x.reverse y.reverse

/-- `compare(a, b)`: the sign bits first, then the limbs (R110). -/
def compareValues (c : Config) (a b : LimbVec) : Comparison :=
  if isNegative c a && !isNegative c b then .less
  else if !isNegative c a && isNegative c b then .greater
  else ucompare a b

/-- `CMP va, vb` (R111). -/
def execCmp (va vb : Reg) (s : State) : Host.Outcome State Fault Refusal :=
  .next (s.setCmp (compareValues s.cfg (s.readV va) (s.readV vb)))

end Sys2Proof.Machine
end

