-- ==== Sys2Proof/Machine/Additive.lean ====
section
/-! DEFINITION. The additive engine and ADD, NEG, SUB (42_additive.md). -/

namespace Sys2Proof.Machine

/-- The limb loop of `add`, with the carry that comes in; the carry out of the last limb is discarded
(R120). -/
def addLoop (c : Config) : Nat → LimbVec → LimbVec → LimbVec
  | carry, x :: xs, y :: ys =>
    let t := x + y + carry
    t % 2 ^ c.W :: addLoop c (t / 2 ^ c.W) xs ys
  | _, _, _ => []

/-- `add(a, b)` (R120). -/
def add (c : Config) (a b : LimbVec) : LimbVec := normN c (addLoop c 0 a b)

/-- `negate(x)` (R123). -/
def negate (c : Config) (x : LimbVec) : LimbVec := normN c (twosRaw c x)

/-- `sub(a, b)` (R125). -/
def sub (c : Config) (a b : LimbVec) : LimbVec := add c a (negate c b)

/-- `ADD vd, va, vb` (R126). -/
def execAdd (vd va vb : Reg) (s : State) : Host.Outcome State Fault Refusal :=
  .next (s.writeV vd (add s.cfg (s.readV va) (s.readV vb)))

/-- `NEG vd, va` (R127). -/
def execNeg (vd va : Reg) (s : State) : Host.Outcome State Fault Refusal :=
  .next (s.writeV vd (negate s.cfg (s.readV va)))

/-- `SUB vd, va, vb` (R128). -/
def execSub (vd va vb : Reg) (s : State) : Host.Outcome State Fault Refusal :=
  .next (s.writeV vd (sub s.cfg (s.readV va) (s.readV vb)))

end Sys2Proof.Machine
end

