-- ==== Sys2Proof/Machine/Divisive.lean ====
section
/-! DEFINITION. The divisive engine and DIVMOD (44_divisive.md). -/

namespace Sys2Proof.Machine

/-- One step of the long division, for dividend bit `k`: shift the remainder, bring the bit in, subtract
the divisor if it fits and set the quotient bit (R151). -/
def udivStep (c : Config) (n d : LimbVec) (k : Nat) (st : LimbVec × Nat) : LimbVec × Nat :=
  let rem := 2 * st.2 + bitAt c n k
  if rem ≥ natOf c d then (setBit c st.1 k 1, rem - natOf c d) else (st.1, rem)

/-- The steps for the bits below `k`, the highest first (R151). -/
def udivLoop (c : Config) (n d : LimbVec) : Nat → LimbVec × Nat → LimbVec × Nat
  | 0, st => st
  | k + 1, st => udivLoop c n d k (udivStep c n d k st)

/-- `udivmod(n, d)`, for magnitudes with `nat(d) >= 1` (R151). -/
def udivmod (c : Config) (n d : LimbVec) : LimbVec × LimbVec :=
  let st := udivLoop c n d c.N (limbsOf c c.L 0, 0)
  (st.1, limbsOf c c.L st.2)

/-- `divmod(a, b)`: quotient and remainder, or DivisionByZero (R150, R152). -/
def divmod (c : Config) (a b : LimbVec) : Except Cause (LimbVec × LimbVec) :=
  let mb := magnitude c b
  if natOf c mb = 0 then .error .divisionByZero
  else
    let (qm, rm) := udivmod c (magnitude c a) mb
    .ok (fromMagnitudeAndSign c qm (isNegative c a != isNegative c b),
      fromMagnitudeAndSign c rm (isNegative c a))

/-- `DIVMOD vq, vr, va, vb` (R154). The command with `vq = vr` is illegal (30_encoding.md R76): the decoder
never gives it, and its meaning is the fault the spec names. DEDUCED, log entry 8. -/
def execDivmod (vq vr va vb : Reg) (s : State) : Host.Outcome State Fault Refusal :=
  if vq = vr then .next (s.raiseFault .illegalCommand)
  else match divmod s.cfg (s.readV va) (s.readV vb) with
    | .error e => .next (s.raiseFault e)
    | .ok (quotient, remainder) => .next ((s.writeV vq quotient).writeV vr remainder)

end Sys2Proof.Machine
end

