-- ==== Sys2Proof/Machine/Multiplicative.lean ====
section
/-! DEFINITION. The multiplicative engine and MUL (43_multiplicative.md). -/

namespace Sys2Proof.Machine

/-- One row of the schoolbook product (R140): the limb `x` of the first magnitude against every limb of
the second, with the running carry, over the accumulator seen from the row's own position on. The last
carry is written over the limb after the row. -/
def mulRow (c : Config) (x : Nat) : LimbVec → LimbVec → Nat → LimbVec
  | y :: ys, t :: acc, carry =>
    let t := t + x * y + carry
    t % 2 ^ c.W :: mulRow c x ys acc (t / 2 ^ c.W)
  | [], _ :: acc, carry => carry :: acc
  | _, [], _ => []

/-- The rows, the first limb of the first magnitude first; after a row the accumulator's lowest limb is
final and the next row starts one limb higher (R140). -/
def mulRows (c : Config) : LimbVec → LimbVec → LimbVec → LimbVec
  | [], _, acc => acc
  | x :: xs, mb, acc =>
    match mulRow c x mb acc 0 with
    | [] => []
    | t :: rest => t :: mulRows c xs mb rest

/-- The accumulator of `2*L` limbs after all rows: the exact product (R140). -/
def mulAcc (c : Config) (ma mb : LimbVec) : LimbVec :=
  mulRows c ma mb (List.replicate (2 * c.L) 0)

/-- `mul(a, b)` (R140). -/
def mul (c : Config) (a b : LimbVec) : LimbVec :=
  fromMagnitudeAndSign c (mulAcc c (magnitude c a) (magnitude c b))
    (isNegative c a != isNegative c b)

/-- `MUL vd, va, vb` (R142). -/
def execMul (vd va vb : Reg) (s : State) : Host.Outcome State Fault Refusal :=
  .next (s.writeV vd (mul s.cfg (s.readV va) (s.readV vb)))

end Sys2Proof.Machine
end

