-- ==== Sys2Proof/Machine/Construction.lean ====
section
/-! DEFINITION. Construction and conversion, and LDI, PARSE, FMT (45_construction_conversion.md). -/

namespace Sys2Proof.Machine

/-! ## From a small integer -/

/-- Limbs `j` to `j + K - 1` of the infinite two's-complement pattern of `e`. -/
def patternLimbs (c : Config) (e : Int) : Nat → Nat → LimbVec
  | _, 0 => []
  | j, K + 1 => (e / 2 ^ (j * c.W) % 2 ^ c.W).toNat :: patternLimbs c e (j + 1) K

/-- `from_small_integer(i)`: the sign extension `e` of the 128-bit pattern of `i`, cut into `L` limbs and
reduced modulo `2^N` (R170). -/
def fromSmallInteger (c : Config) (i : Int) : LimbVec :=
  let e := sext 128 (i % 2 ^ 128).toNat
  normN c (patternLimbs c e 0 c.L)

/-- `LDI vd` (R171). -/
def execLdi (vd : Reg) (s : State) : Host.Outcome State Fault Refusal :=
  .next (s.writeV vd (fromSmallInteger s.cfg s.immOperand))

/-! ## From decimal text. The character codes are those of 20_memory.md R54 (PRESUMED by the spec itself
from general knowledge, log entry 12). -/

/-- The byte of `+`. -/
def plusByte : Byte := 0x2B

/-- The byte of `-`. -/
def minusByte : Byte := 0x2D

/-- The byte of the digit `0`; the other digits follow it. -/
def zeroByte : Byte := 0x30

/-- The byte is one of `0` to `9`. -/
def isDigit (b : Byte) : Bool := decide (0x30 ≤ b.toNat) && decide (b.toNat ≤ 0x39)

/-- The number a digit stands for, `c - 0x30`. -/
def digitValue (b : Byte) : Nat := b.toNat - 0x30

/-- The digit loop of `from_text`; none at the first byte that is not a digit (R173). -/
def parseDigits (c : Config) (result : LimbVec) : List Byte → Option LimbVec
  | [] => some result
  | b :: bs =>
    if isDigit b then
      parseDigits c
        (add c (mul c result (fromSmallInteger c 10)) (fromSmallInteger c (digitValue b))) bs
    else none

/-- The text without its optional leading sign, and whether the sign is `-` (R173). -/
def splitSign : List Byte → Bool × List Byte
  | [] => (false, [])
  | b :: bs =>
    if b = minusByte then (true, bs) else if b = plusByte then (false, bs) else (false, b :: bs)

/-- `from_text(s)`: a Value, or none for a ParseError (R173). -/
def fromText (c : Config) (text : List Byte) : Option LimbVec :=
  let (neg, digits) := splitSign text
  if digits = [] then none
  else match parseDigits c (wrapN c 0) digits with
    | none => none
    | some result => some (if neg then negate c result else result)

/-- The text is well formed by the grammar of R172. -/
def wellFormedText (text : List Byte) : Bool :=
  let digits := (splitSign text).2
  !digits.isEmpty && digits.all isDigit

/-- `PARSE vd` (R175): TextLength before any byte is read, then the text, then ParseError or a Value. -/
def execParse (vd : Reg) (s : State) : Host.Outcome State Fault Refusal :=
  if s.tlen.toNat > s.cfg.TCAP then .next (s.raiseFault .textLength)
  else match s.textOperand with
    | .error e => .fault e
    | .ok text =>
      match fromText s.cfg text with
      | some x => .next ((s.writeV vd x).setPerr false)
      | none => .next (s.setPerr true)

/-! ## To decimal text -/

/-- The digits that repeated division of the magnitude by ten gives, the last one first, on top of the
stack `digits`; at most `fuel` divisions (R180). -/
def peelDigits (c : Config) : Nat → LimbVec → List Nat → List Nat
  | 0, _, digits => digits
  | fuel + 1, m, digits =>
    if natOf c m = 0 then digits
    else
      let (q, d) := udivmod c m (limbsOf c c.L 10)
      peelDigits c fuel q (natOf c d :: digits)

/-- The byte of a digit, `0x30 + t`. -/
def digitByte (t : Nat) : Byte := zeroByte + BitVec.ofNat 8 t

/-- `to_text(v)` (R180). `N + 1` divisions by ten bring every magnitude to zero (R225; DEDUCED, log
entry 10). -/
def toText (c : Config) (x : LimbVec) : List Byte :=
  if x.all (· == 0) then [zeroByte]
  else
    let digits := (peelDigits c (c.N + 1) (magnitude c x) []).map digitByte
    if isNegative c x then minusByte :: digits else digits

/-- `FMT va` (R181). -/
def execFmt (va : Reg) (s : State) : Host.Outcome State Fault Refusal :=
  match s.writeTextResult (toText s.cfg (s.readV va)) with
  | .error e => .fault e
  | .ok s' => .next s'

end Sys2Proof.Machine
end

