-- ==== Sys2Proof/Machine/Dispatch.lean ====
section
/-! DEFINITION. One arm per command, each one call of its meaning. -/

namespace Sys2Proof.Machine

/-- What a command does to the state; the write to CMD that delivers it is `State.writeCmd` of
HostSpace.lean, and the test of STATUS.FAULT stands there. DEDUCED, log entry 14. -/
def exec (i : Instr) (s : State) : Host.Outcome State Fault Refusal :=
  match i with
  | .cmp va vb => Sys2Proof.Machine.execCmp va vb s
  | .add vd va vb => Sys2Proof.Machine.execAdd vd va vb s
  | .neg vd va => Sys2Proof.Machine.execNeg vd va s
  | .sub vd va vb => Sys2Proof.Machine.execSub vd va vb s
  | .mul vd va vb => Sys2Proof.Machine.execMul vd va vb s
  | .divmod vq vr va vb => Sys2Proof.Machine.execDivmod vq vr va vb s
  | .ldi vd => Sys2Proof.Machine.execLdi vd s
  | .parse vd => Sys2Proof.Machine.execParse vd s
  | .fmt va => Sys2Proof.Machine.execFmt va s

end Sys2Proof.Machine
end

