-- ==== Sys2Proof/Machine/HostSpace.lean ====
section
/-! DEFINITION. The host register space and what each host action does (20_memory.md R55 to R59). -/

namespace Sys2Proof.Machine

/-- What stands at a host register number (20_memory.md R56). -/
inductive HostReg where
  | cmd
  | status
  | tlen
  | imm (i : Fin 4)
  | txt (i : Nat)
  | unmapped
  deriving DecidableEq, Repr

/-- The register map of 20_memory.md R56. -/
def hostReg (c : Config) (r : BitVec 32) : HostReg :=
  if r = 0x000 then .cmd
  else if r = 0x001 then .status
  else if r = 0x002 then .tlen
  else if r = 0x004 then .imm 0
  else if r = 0x005 then .imm 1
  else if r = 0x006 then .imm 2
  else if r = 0x007 then .imm 3
  else if 0x100 ≤ r.toNat ∧ r.toNat < 0x100 + c.TCAP then .txt (r.toNat - 0x100)
  else .unmapped

/-- `HostRead(r)`: the data returned, in the running state and in the fault state alike
(20_memory.md R56, R57). -/
def State.hostRead (s : State) (r : BitVec 32) : HostWord :=
  match hostReg s.cfg r with
  | .cmd => 0
  | .status => s.status.word
  | .tlen => s.tlen.setWidth 32
  | .imm i => immWord s.imm i
  | .txt i => (s.txt.read i).setWidth 32
  | .unmapped => 0

/-- A write of `w` to CMD in the running state: decode, then execute; an illegal word raises IllegalCommand
before any operand is read (30_encoding.md R79). -/
def State.writeCmd (s : State) (w : HostWord) : Host.Outcome State Fault Refusal :=
  match decode w with
  | .error _ => .next (s.raiseFault .illegalCommand)
  | .ok i => exec i s

/-- `HostWrite(r, d)` (20_memory.md R56); in the fault state it does nothing (R57). -/
def State.hostWrite (s : State) (r : BitVec 32) (d : HostWord) : Host.Outcome State Fault Refusal :=
  if s.status.fault then .next s
  else match hostReg s.cfg r with
    | .cmd => s.writeCmd d
    | .status => .next s
    | .tlen => .next (s.setTlen (d.extractLsb' 0 16))
    | .imm i => .next { s with imm := setImmWord s.imm i d }
    | .txt i => .next { s with txt := s.txt.write i (d.extractLsb' 0 8) }
    | .unmapped => .next s

/-- One host action (20_memory.md R55, 70_reset_and_hazards.md R220). A read changes nothing of CORE; the
data it returns goes to the host. -/
def State.perform (s : State) : HostAction → Host.Outcome State Fault Refusal
  | .write r d => s.hostWrite r d
  | .read r => .next { s with returned := s.returned ++ [s.hostRead r] }
  | .reset => .next s.applyReset

/-- One step: the host's next action, whole (70_reset_and_hazards.md R224). With no action left CORE is idle
with all its state held (60_exceptions.md R214; DEDUCED, log entry 4). -/
def State.advance (s : State) : Host.Outcome State Fault Refusal :=
  match s.pending with
  | [] => .next s
  | a :: rest => State.perform { s with pending := rest } a

/-- A host write of the command word `w` to CMD (register number `0x000`). -/
def cmdWrite (w : HostWord) : HostAction := .write 0x000 w

end Sys2Proof.Machine
end

