-- ==== Sys2Proof/Machine/Step.lean ====
section
/-! DEFINITION. One step of the machine, and where a command word is put so that the next step runs it. -/

namespace Sys2Proof.Machine

/-- One step: the host's next action, whole. -/
def step (s : State) : Host.Outcome State Fault Refusal := s.advance

/-- `s` with a host write of the word to CMD as its next action. CORE holds no program: a command is the data
of the host's write (10_state.md R27, R31). Log entry 2. -/
def State.withFetchWord (s : State) (nbits w : Nat) : State :=
  { s with pending := cmdWrite (BitVec.ofNat 32 (w % 2 ^ nbits)) :: s.pending }

end Sys2Proof.Machine
end

