-- ==== Sys2Proof/Machine/Script.lean ====
section
/-! DEFINITION. The host scripts of 30_encoding.md R81 as lists of host actions. The host's own control
flow (IF, WHILE) is the host's: a script here is the sequence of actions that results. -/

namespace Sys2Proof.Machine

/-- A command line of a script. -/
def scriptCommand (i : Instr) : HostAction := cmdWrite (encode i)

/-- `WR 0x004 .. 0x007` with the 128-bit pattern of `i`. -/
def scriptImm (i : Int) : List HostAction :=
  let p := BitVec.ofInt 128 i
  [.write 0x004 (immWord p 0), .write 0x005 (immWord p 1), .write 0x006 (immWord p 2),
    .write 0x007 (immWord p 3)]

/-- The pseudo-command `LDI vd, #i`. -/
def scriptLdi (vd : Reg) (i : Int) : List HostAction := scriptImm i ++ [scriptCommand (.ldi vd)]

/-- `WR 0x100+j` for the bytes of a text, from index `j` on. -/
def scriptTextFrom : Nat → List Byte → List HostAction
  | _, [] => []
  | j, b :: bs =>
    .write (BitVec.ofNat 32 (0x100 + j)) (b.setWidth 32) :: scriptTextFrom (j + 1) bs

/-- The pseudo-command `PARSE vd, "s"`. -/
def scriptParse (vd : Reg) (text : List Byte) : List HostAction :=
  scriptTextFrom 0 text ++ [.write 0x002 (BitVec.ofNat 32 text.length), scriptCommand (.parse vd)]

/-- The pseudo-command `FMT va -> s`, for a host that reads the `k` characters TLEN tells it. -/
def scriptFmt (va : Reg) (k : Nat) : List HostAction :=
  [scriptCommand (.fmt va), .read 0x002] ++
    (List.range k).map fun j => .read (BitVec.ofNat 32 (0x100 + j))

/-- The pseudo-command `CMP va, vb -> c`; `c` is bits 6:5 of the data returned. -/
def scriptCmp (va vb : Reg) : List HostAction := [scriptCommand (.cmp va vb), .read 0x001]

/-- The state with these actions to be performed before those already pending. -/
def State.withScript (s : State) (actions : List HostAction) : State :=
  { s with pending := actions ++ s.pending }

end Sys2Proof.Machine
end

