-- ==== Sys2Proof/Safety.lean ====
section
/-! DEFINITION. What a well-kept state is, and what counts as a safe run. -/

namespace Sys2Proof.Machine

/-- The fields of STATUS hold only what the rules produce: FCAUSE is 0 while FAULT is 0 and one of 1, 2, 3
while it is 1 (10_state.md R30), and CMP is never `0b11` (R28). -/
def Status.legal (t : Status) : Bool :=
  (if t.fault then t.fcause == 1 || t.fcause == 2 || t.fcause == 3 else t.fcause == 0) && t.cmp != 0b11

/-- The invariant of every state a run reaches: every value register holds a canonical Value
(10_state.md R21), the text buffer is in canonical form with no index at or above `TCAP` (10_state.md R25),
and STATUS is legal. -/
def State.inv (s : State) : Bool :=
  s.v.toList.all (canonical s.cfg) && s.txt.wf && s.txt.below s.cfg.TCAP && s.status.legal

/-- CORE is in the running state (60_exceptions.md R212). -/
def State.running (s : State) : Bool := !s.status.fault

/-- The state after at most `k` host actions, if the model does not stop. -/
def State.after : Nat → State → Option State
  | 0, s => some s
  | k + 1, s =>
    match step s with
    | .next s' => State.after k s'
    | .fault _ => none
    | .refused _ => none

/-- A run from `s` is safe up to `k` actions: it ends in the running state (70_reset_and_hazards.md R228:
"with `FAULT = 1` meaning it went wrong"). -/
def safeRun (k : Nat) (s : State) : Bool := (State.after k s).any State.running

/-! ## The terms that claims are stated in -/

/-- The integer that value register `r` holds (40_storage_sign.md R90). -/
def State.intAt (s : State) (r : Reg) : Int := sval s.cfg (s.readV r)

/-- Value register `r` holds a canonical Value (40_storage_sign.md R91). -/
def State.canonicalAt (s : State) (r : Reg) : Bool := canonical s.cfg (s.readV r)

/-- The text `TXT[0..TLEN-1]` (00_scope.md, glossary). -/
def State.text (s : State) : List Byte := (List.range s.tlen.toNat).map s.txt.read

/-- The order of two integers as a comparison's outcome. -/
def orderOf (a b : Int) : Comparison := if a < b then .less else if a = b then .equal else .greater

/-- A sign that may lead a text: none, `+` or `-` (45_construction_conversion.md R172). -/
abbrev LeadingSign (sign : List Byte) : Prop := sign = [] ∨ sign = [0x2B] ∨ sign = [0x2D]

/-- One or more decimal digits (45_construction_conversion.md R172). -/
abbrev DigitString (digits : List Byte) : Prop :=
  digits ≠ [] ∧ ∀ b ∈ digits, 0x30 ≤ b.toNat ∧ b.toNat ≤ 0x39

/-- The text grammar of 45_construction_conversion.md R172. -/
def TextGrammar (text : List Byte) : Prop :=
  ∃ sign digits, text = sign ++ digits ∧ LeadingSign sign ∧ DigitString digits

/-- The decimal value of a digit string. -/
def decimalValue (digits : List Byte) : Nat :=
  digits.foldl (fun n b => 10 * n + (b.toNat - 0x30)) 0

/-- The canonical decimal text of an integer (45_construction_conversion.md R187). -/
def decimalText (z : Int) : List Byte :=
  if z = 0 then [0x30]
  else (if z < 0 then [0x2D] else []) ++
    (Nat.digits 10 z.natAbs).reverse.map fun t => BitVec.ofNat 8 (0x30 + t)

/-- The word is illegal by 30_encoding.md R74, R75 or R76. -/
abbrev IllegalWord (w : HostWord) : Prop :=
  zField w ≠ 0 ∨
  ((opField w).toNat = 0x00 ∨ 0x0A ≤ (opField w).toNat) ∨
  ((opField w).toNat = 0x01 ∧ (vdField w ≠ 0 ∨ vrField w ≠ 0)) ∨
  (((opField w).toNat = 0x02 ∨ (opField w).toNat = 0x04 ∨ (opField w).toNat = 0x05) ∧
    vrField w ≠ 0) ∨
  ((opField w).toNat = 0x03 ∧ (vbField w ≠ 0 ∨ vrField w ≠ 0)) ∨
  ((opField w).toNat = 0x06 ∧ vdField w = vrField w) ∨
  (((opField w).toNat = 0x07 ∨ (opField w).toNat = 0x08) ∧
    (vaField w ≠ 0 ∨ vbField w ≠ 0 ∨ vrField w ≠ 0)) ∨
  ((opField w).toNat = 0x09 ∧ (vdField w ≠ 0 ∨ vbField w ≠ 0 ∨ vrField w ≠ 0))

/-- Every value register but those listed is unchanged. -/
def SameRegs (s t : State) (except : List Reg) : Prop := ∀ r, r ∉ except → t.readV r = s.readV r

/-- Every byte of the text buffer reads as before. -/
def SameText (s t : State) : Prop := ∀ i, t.txt.read i = s.txt.read i

/-- The configuration and the host's side are unchanged. -/
def SameHost (s t : State) : Prop :=
  t.cfg = s.cfg ∧ t.pending = s.pending ∧ t.returned = s.returned

/-- Nothing changes but the value registers listed. -/
def RegisterFrame (s t : State) (destinations : List Reg) : Prop :=
  SameRegs s t destinations ∧ t.status = s.status ∧ t.imm = s.imm ∧ t.tlen = s.tlen ∧
    SameText s t ∧ SameHost s t

/-- Nothing changes but STATUS.FAULT and STATUS.FCAUSE, which take a fault (60_exceptions.md R204). -/
def FaultFrame (s t : State) : Prop :=
  SameRegs s t [] ∧ t.status.fault = true ∧ t.status.perr = s.status.perr ∧
    t.status.cmp = s.status.cmp ∧ t.imm = s.imm ∧ t.tlen = s.tlen ∧ SameText s t ∧ SameHost s t

/-- The outcome with `f` applied to its next state. -/
def mapNext (f : State → State) :
    Host.Outcome State Fault Refusal → Host.Outcome State Fault Refusal
  | .next t => .next (f t)
  | .fault e => .fault e
  | .refused e => .refused e

/-- The register numbers that a list of host actions reads, in order. -/
def readsOf : List HostAction → List (BitVec 32)
  | [] => []
  | .read r :: as => r :: readsOf as
  | .write _ _ :: as => readsOf as
  | .reset :: as => readsOf as

/-- Two states of units that differ at most in the limb width `W`: every value register holds the same
integer, and everything else is the same (00_scope.md R6). -/
def SameButWidth (s t : State) : Prop :=
  t.cfg.N = s.cfg.N ∧ t.cfg.TCAP = s.cfg.TCAP ∧ (∀ r, t.intAt r = s.intAt r) ∧ t.imm = s.imm ∧
    t.tlen = s.tlen ∧ t.txt = s.txt ∧ t.status = s.status ∧ t.pending = s.pending ∧
    t.returned = s.returned

end Sys2Proof.Machine
end

