-- ==== Sys2Proof/Certificates/Slice0/Obligations.lean ====
section
/-! DEFINITION. The statements for the provers. Each docstring names the rule of spec/ it formalises. -/

open Sys2Proof Sys2Proof.Machine

/-! ## Command words -/

/-- 30_encoding.md R71, R80: the decoder reads every legal command back from its word, with every operand. -/
def Obligations.DecodeOfEncodeGivesTheCommandBack : Prop :=
  ∀ i : Instr, i.wellFormed = true → decode (encode i) = .ok i

/-- 30_encoding.md R72, R74, R80: a word the decoder accepts is the word of the command it gives; there is no
second word for a command. -/
def Obligations.AcceptedWordIsTheEncodingOfItsCommand : Prop :=
  ∀ w i, decode w = .ok i → encode i = w ∧ i.wellFormed = true

/-- 30_encoding.md R72: the nine rows of match and mask, with the fields each command uses. -/
def Obligations.OpcodeMapByMatchAndMask : Prop :=
  ∀ w : HostWord,
    (decode w = .ok (.cmp (vaField w) (vbField w)) ↔ w &&& 0xFFF00FFF = 0x00000001) ∧
    (decode w = .ok (.add (vdField w) (vaField w) (vbField w)) ↔ w &&& 0xFFF000FF = 0x00000002) ∧
    (decode w = .ok (.neg (vdField w) (vaField w)) ↔ w &&& 0xFFFF00FF = 0x00000003) ∧
    (decode w = .ok (.sub (vdField w) (vaField w) (vbField w)) ↔ w &&& 0xFFF000FF = 0x00000004) ∧
    (decode w = .ok (.mul (vdField w) (vaField w) (vbField w)) ↔ w &&& 0xFFF000FF = 0x00000005) ∧
    (decode w = .ok (.divmod (vdField w) (vrField w) (vaField w) (vbField w)) ↔
      w &&& 0xFF0000FF = 0x00000006 ∧ vdField w ≠ vrField w) ∧
    (decode w = .ok (.ldi (vdField w)) ↔ w &&& 0xFFFFF0FF = 0x00000007) ∧
    (decode w = .ok (.parse (vdField w)) ↔ w &&& 0xFFFFF0FF = 0x00000008) ∧
    (decode w = .ok (.fmt (vaField w)) ↔ w &&& 0xFFFF0FFF = 0x00000009)

/-- Words of 97_test_vectors_shell.md section 2.9, one per command, and three illegal ones. -/
def Obligations.TabulatedWordsDecode : Prop :=
  decode 0x00021001 = .ok (.cmp 1 2) ∧ decode 0x00021302 = .ok (.add 3 1 2) ∧
  decode 0x00002203 = .ok (.neg 2 2) ∧ decode 0x000EF004 = .ok (.sub 0 15 14) ∧
  decode 0x00021305 = .ok (.mul 3 1 2) ∧ decode 0x00421306 = .ok (.divmod 3 4 1 2) ∧
  decode 0x00000507 = .ok (.ldi 5) ∧ decode 0x00000F08 = .ok (.parse 15) ∧
  decode 0x00003009 = .ok (.fmt 3) ∧ decode 0x00000000 = .error .unknownOpcode ∧
  decode 0x00321306 = .error .sameDestination ∧ decode 0x80000507 = .error .mustBeZero

/-- 30_encoding.md R74, R75, R76; 60_exceptions.md R202: a write of an illegal word sets FAULT and cause 2 and
records nothing more, and every other word is a legal command. -/
def Obligations.IllegalWordTakesIllegalCommand : Prop :=
  ∀ (s : State) (w : HostWord) (rest : List HostAction),
    s.status.fault = false → s.pending = .write 0x000 w :: rest →
    (IllegalWord w → step s =
      .next { s with pending := rest, status := { s.status with fault := true, fcause := 2 } }) ∧
    (¬ IllegalWord w → ∃ i, decode w = .ok i ∧ i.wellFormed = true) ∧
    (∀ i t, i.wellFormed = true → exec i s = .next t → t.status.fault = true → t.status.fcause ≠ 2)

/-! ## Steps and the host register space -/

/-- 30_encoding.md R79, 10_state.md R31: in the running state a write of a legal word to CMD runs the command it
decodes to, whole, on the state with that write taken off the host's list (the list is the model's own, log
entry 2). -/
def Obligations.StepRunsTheDecodedCommand : Prop :=
  ∀ (s : State) (w : HostWord) (rest : List HostAction) (i : Instr),
    s.status.fault = false → s.pending = .write 0x000 w :: rest → decode w = .ok i →
    step s = exec i { s with pending := rest }

/-- 20_memory.md R57: in the fault state every write does nothing, and every read returns what the register map
says of the state as the fault left it. -/
def Obligations.FaultStateIgnoresWritesAndAnswersReads : Prop :=
  ∀ (s : State) (rest : List HostAction), s.status.fault = true →
    (∀ r d, s.pending = .write r d :: rest → step s = .next { s with pending := rest }) ∧
    (∀ r, s.pending = .read r :: rest →
      step s = .next { s with pending := rest, returned := s.returned ++ [s.hostRead r] })

/-- 20_memory.md R56: the register map, reads and writes, every row. -/
def Obligations.HostRegisterMap : Prop :=
  ∀ s : State, s.txt.wf = true →
    (s.hostRead 0x000 = 0 ∧ s.hostRead 0x001 = s.status.word ∧
      (s.hostRead 0x002).toNat = s.tlen.toNat ∧ s.hostRead 0x003 = 0 ∧
      s.hostRead 0x004 = s.imm.extractLsb' 0 32 ∧ s.hostRead 0x005 = s.imm.extractLsb' 32 32 ∧
      s.hostRead 0x006 = s.imm.extractLsb' 64 32 ∧ s.hostRead 0x007 = s.imm.extractLsb' 96 32 ∧
      (∀ r, 0x008 ≤ r.toNat → r.toNat ≤ 0x0FF → s.hostRead r = 0) ∧
      (∀ i, i < s.cfg.TCAP → (s.hostRead (BitVec.ofNat 32 (0x100 + i))).toNat = (s.txt.read i).toNat) ∧
      (∀ r, 0x100 + s.cfg.TCAP ≤ r.toNat → s.hostRead r = 0)) ∧
    (∀ (r : BitVec 32) (d : HostWord) (rest : List HostAction),
      s.status.fault = false → s.pending = .write r d :: rest →
      (r = 0x000 → step s = match decode d with
        | .error _ => .next (State.raiseFault { s with pending := rest } .illegalCommand)
        | .ok i => exec i { s with pending := rest }) ∧
      (r = 0x001 ∨ r = 0x003 ∨ (0x008 ≤ r.toNat ∧ r.toNat ≤ 0x0FF) ∨ 0x100 + s.cfg.TCAP ≤ r.toNat →
        step s = .next { s with pending := rest }) ∧
      (r = 0x002 → step s = .next { s with pending := rest, tlen := d.extractLsb' 0 16 }) ∧
      (r = 0x004 → step s =
        .next { s with pending := rest, imm := s.imm.extractLsb' 32 96 ++ d }) ∧
      (r = 0x005 → step s =
        .next { s with pending := rest, imm := s.imm.extractLsb' 64 64 ++ d ++ s.imm.extractLsb' 0 32 }) ∧
      (r = 0x006 → step s =
        .next { s with pending := rest, imm := s.imm.extractLsb' 96 32 ++ d ++ s.imm.extractLsb' 0 64 }) ∧
      (r = 0x007 → step s =
        .next { s with pending := rest, imm := d ++ s.imm.extractLsb' 0 96 }) ∧
      (∀ i, i < s.cfg.TCAP → r = BitVec.ofNat 32 (0x100 + i) → ∃ t, step s = .next t ∧
        t = { s with pending := rest, txt := t.txt } ∧ t.txt.read i = d.extractLsb' 0 8 ∧
        ∀ j, j ≠ i → t.txt.read j = s.txt.read j))

/-- 10_state.md R26: the places of the fields in the data read from STATUS. -/
def Obligations.StatusReadsItsFields : Prop :=
  ∀ s : State,
    (s.hostRead 0x001).toNat =
      (if s.status.fault then 1 else 0) + 2 * s.status.fcause.toNat +
        16 * (if s.status.perr then 1 else 0) + 32 * s.status.cmp.toNat ∧
    (s.hostRead 0x001).extractLsb' 7 25 = 0

/-- 20_memory.md R52: IMM0 is the low word and IMM3 the high one, and the top bit of IMM3 is the sign of the
small integer that LDI reads. -/
def Obligations.ImmWordsAreLittleEndian : Prop :=
  (∀ (m : BitVec 128) (i j : Fin 4) (d : HostWord),
    immWord (setImmWord m i d) j = if j = i then d else immWord m j) ∧
  (∀ s : State,
    s.imm = s.hostRead 0x007 ++ s.hostRead 0x006 ++ s.hostRead 0x005 ++ s.hostRead 0x004) ∧
  (∀ s : State, s.immOperand < 0 ↔ (s.hostRead 0x007).msb = true)

/-- 20_memory.md R59: a read changes nothing but what the host has been returned and its own list, two reads
return the same data, and outside CMD a write twice is a write once, with no value register and no STATUS
field touched. -/
def Obligations.ReadsHaveNoSideEffectsAndWritesRepeat : Prop :=
  ∀ (s : State) (rest : List HostAction),
    (∀ r, s.pending = .read r :: .read r :: rest →
      State.after 2 s = some { s with
        pending := rest, returned := s.returned ++ [s.hostRead r, s.hostRead r] }) ∧
    (∀ r d, r ≠ 0x000 → s.txt.wf = true → s.pending = .write r d :: .write r d :: rest → ∃ t,
      step { s with pending := .write r d :: rest } = .next t ∧ State.after 2 s = some t ∧
      t.v = s.v ∧ t.status = s.status)

/-- 60_exceptions.md R214, 70_reset_and_hazards.md R221: with nothing for it to do CORE is idle with its state
held. That a step with no host action left is such an idle step is the model's reading (DEDUCED, log entry
4). -/
def Obligations.IdleCoreHoldsItsState : Prop :=
  ∀ s : State, s.pending = [] → step s = .next s

/-- 20_memory.md R55, R60, 70_reset_and_hazards.md R224, 10_state.md R34: a step performs the host's first action,
leaves the later ones, keeps the configuration, and returns data for a read only. The lists are the model's own
(log entries 2 and 3). -/
def Obligations.StepTakesTheFirstActionOnly : Prop :=
  ∀ (s t : State) (a : HostAction) (rest : List HostAction),
    s.pending = a :: rest → step s = .next t →
    t.pending = rest ∧ t.cfg = s.cfg ∧
    t.returned = s.returned ++ (readsOf [a]).map s.hostRead

/-! ## Reset -/

/-- 10_state.md R33: every piece of state after reset, in every configuration. -/
def Obligations.ResetValues : Prop :=
  ∀ c : Config,
    (∀ r, (State.resetOf c).readV r = List.replicate c.L 0 ∧
      canonical c ((State.resetOf c).readV r) = true ∧ (State.resetOf c).intAt r = 0) ∧
    (State.resetOf c).imm = 0 ∧ (State.resetOf c).tlen = 0 ∧
    (∀ i, (State.resetOf c).txt.read i = 0x00) ∧
    (State.resetOf c).status.fault = false ∧ (State.resetOf c).status.fcause = 0 ∧
    (State.resetOf c).status.perr = false ∧ (State.resetOf c).status.cmp = 0b00

/-- 70_reset_and_hazards.md R220: a reset between two transactions, in either state, sets everything to its reset
value, whatever came before; and no other action leaves the fault state. What survives in the model is the
configuration and the host's two lists (DEDUCED, log entry 5). -/
def Obligations.ResetActionSetsEverything : Prop :=
  ∀ (s : State) (rest : List HostAction),
    (s.pending = .reset :: rest →
      step s = .next { State.resetOf s.cfg with pending := rest, returned := s.returned }) ∧
    (∀ a t, a ≠ .reset → s.pending = a :: rest → s.status.fault = true → step s = .next t →
      t.status.fault = true)

/-! ## Faults -/

/-- 60_exceptions.md R204: fault entry sets FAULT and the cause code and writes nothing else, and a command that
faults does exactly that. -/
def Obligations.FaultEntryWritesOnlyFaultAndCause : Prop :=
  ∀ (s : State) (e : Cause),
    (s.raiseFault e).status.fault = true ∧
    (s.raiseFault e).status.fcause = (match e with
      | .divisionByZero => 1
      | .illegalCommand => 2
      | .textLength => 3) ∧
    FaultFrame s (s.raiseFault e) ∧ (s.raiseFault e).txt = s.txt ∧ (s.raiseFault e).v = s.v ∧
    ∀ i t, s.status.fault = false → exec i s = .next t → t.status.fault = true →
      ∃ e', t = s.raiseFault e'

/-- 60_exceptions.md R205: while no reset comes, every later host write is without effect and every read is
answered from the state as the fault left it; a reset leaves the fault state and loses every value register. -/
def Obligations.FaultStateLastsUntilReset : Prop :=
  (∀ (k : Nat) (s : State), s.status.fault = true → .reset ∉ s.pending.take k →
    State.after k s = some { s with
      pending := s.pending.drop k,
      returned := s.returned ++ (readsOf (s.pending.take k)).map s.hostRead }) ∧
  (∀ (s : State) (rest : List HostAction), s.pending = .reset :: rest →
    ∃ t, step s = .next t ∧ t.status.fault = false ∧ ∀ r, t.readV r = List.replicate s.cfg.L 0)

/-- 10_state.md R30: FAULT and FCAUSE are 0 after reset; until a reset, FAULT once set stays and keeps its cause,
FCAUSE is not written in the running state, and a fault that is taken has one of the three causes. -/
def Obligations.FaultIsTakenOnceBetweenResets : Prop :=
  (∀ c, (State.resetOf c).status.fault = false ∧ (State.resetOf c).status.fcause = 0) ∧
  (∀ (s t : State) (a : HostAction) (rest : List HostAction),
    a ≠ .reset → s.pending = a :: rest → step s = .next t →
    (s.status.fault = true → t.status.fault = true ∧ t.status.fcause = s.status.fcause) ∧
    (s.status.fault = false → t.status.fault = false → t.status.fcause = s.status.fcause) ∧
    (s.status.fault = false → t.status.fault = true →
      t.status.fcause = 1 ∨ t.status.fcause = 2 ∨ t.status.fcause = 3))

/-- 60_exceptions.md R201: DIVMOD with a zero divisor takes DivisionByZero, whatever the dividend, and writes
nothing else; no other command takes it. -/
def Obligations.DivisionByZeroIsRaisedByDivmodAlone : Prop :=
  ∀ s : State,
    (∀ vq vr va vb, vq ≠ vr → s.canonicalAt vb = true → s.intAt vb = 0 →
      exec (.divmod vq vr va vb) s =
        .next { s with status := { s.status with fault := true, fcause := 1 } }) ∧
    (∀ i t, s.inv = true → s.status.fault = false → exec i s = .next t → t.status.fault = true →
      t.status.fcause = 1 → ∃ vq vr va vb, i = .divmod vq vr va vb ∧ s.intAt vb = 0)

/-- 60_exceptions.md R207: PARSE with `TLEN > TCAP` takes TextLength before any byte is read, and writes nothing
else; no other command takes it. -/
def Obligations.TextLengthIsRaisedByParseAlone : Prop :=
  ∀ s : State,
    (∀ vd, s.cfg.TCAP < s.tlen.toNat → exec (.parse vd) s =
      .next { s with status := { s.status with fault := true, fcause := 3 } }) ∧
    (∀ i t, s.status.fault = false → exec i s = .next t → t.status.fault = true →
      t.status.fcause = 3 → (∃ vd, i = .parse vd) ∧ s.cfg.TCAP < s.tlen.toNat)

/-- 60_exceptions.md R203: PARSE of a malformed text sets PERR and nothing else, so the destination keeps its
contents and FAULT stays, and the next command executes normally; only PARSE writes PERR. -/
def Obligations.ParseErrorSetsPerrAlone : Prop :=
  ∀ s : State,
    (∀ vd, s.tlen.toNat ≤ s.cfg.TCAP → ¬ TextGrammar s.text →
      exec (.parse vd) s = .next { s with status := { s.status with perr := true } } ∧
      ∀ (w : HostWord) (rest : List HostAction) (i : Instr), s.status.fault = false →
        s.pending = .write 0x000 w :: rest → decode w = .ok i →
        step { s with status := { s.status with perr := true } } =
          exec i { s with status := { s.status with perr := true }, pending := rest }) ∧
    (∀ i t, (∀ vd, i ≠ .parse vd) → exec i s = .next t → t.status.perr = s.status.perr)

/-- 60_exceptions.md R206: the first condition in the order IllegalCommand, then TextLength or DivisionByZero, then
ParseError is the one reported. -/
def Obligations.FirstConditionIsReported : Prop :=
  ∀ (s : State) (w : HostWord) (rest : List HostAction),
    s.status.fault = false → s.pending = .write 0x000 w :: rest →
    (IllegalWord w →
      step s = .next (State.raiseFault { s with pending := rest } .illegalCommand)) ∧
    (∀ vd, decode w = .ok (.parse vd) → s.cfg.TCAP < s.tlen.toNat →
      step s = .next (State.raiseFault { s with pending := rest } .textLength)) ∧
    (∀ vq vr va vb, decode w = .ok (.divmod vq vr va vb) → s.canonicalAt vb = true →
      s.intAt vb = 0 →
      step s = .next (State.raiseFault { s with pending := rest } .divisionByZero)) ∧
    (∀ vd, decode w = .ok (.parse vd) → s.tlen.toNat ≤ s.cfg.TCAP → ¬ TextGrammar s.text →
      step s = .next (State.setPerr { s with pending := rest } true))

/-- 60_exceptions.md R208: no result that does not fit raises anything or sets a flag. -/
def Obligations.OverflowIsNoException : Prop :=
  ∀ s : State,
    (∀ vd va vb, ∃ t, exec (.add vd va vb) s = .next t ∧ t.status = s.status) ∧
    (∀ vd va vb, ∃ t, exec (.sub vd va vb) s = .next t ∧ t.status = s.status) ∧
    (∀ vd va, ∃ t, exec (.neg vd va) s = .next t ∧ t.status = s.status) ∧
    (∀ vd va vb, ∃ t, exec (.mul vd va vb) s = .next t ∧ t.status = s.status) ∧
    (∀ vd, ∃ t, exec (.ldi vd) s = .next t ∧ t.status = s.status) ∧
    (∀ vq vr va vb, vq ≠ vr → s.canonicalAt vb = true → s.intAt vb ≠ 0 →
      ∃ t, exec (.divmod vq vr va vb) s = .next t ∧ t.status = s.status) ∧
    (∀ vd, s.tlen.toNat ≤ s.cfg.TCAP → TextGrammar s.text →
      ∃ t, exec (.parse vd) s = .next t ∧ t.status = { s.status with perr := false })

/-! ## Flags -/

/-- 10_state.md R28: STATUS.CMP is written by CMP alone, with the code of its outcome and so never `0b11`, is read by
no command, and is 0 after reset. -/
def Obligations.OnlyCmpWritesTheCmpFlag : Prop :=
  (∀ s : State, (s.hostRead 0x001).extractLsb' 5 2 = s.status.cmp) ∧
  (∀ (i : Instr) (s t : State), exec i s = .next t →
    ((∀ va vb, i ≠ .cmp va vb) → t.status.cmp = s.status.cmp) ∧
    (∀ va vb, i = .cmp va vb →
      t.status.cmp = match compareValues s.cfg (s.readV va) (s.readV vb) with
        | .equal => 0b00
        | .less => 0b01
        | .greater => 0b10)) ∧
  (∀ (i : Instr) (s : State) (x : BitVec 2), (∀ va vb, i ≠ .cmp va vb) →
    exec i { s with status := { s.status with cmp := x } } =
      mapNext (fun t => { t with status := { t.status with cmp := x } }) (exec i s)) ∧
  (∀ (va vb : Reg) (s : State) (x : BitVec 2),
    exec (.cmp va vb) { s with status := { s.status with cmp := x } } = exec (.cmp va vb) s) ∧
  (∀ c, (State.resetOf c).status.cmp = 0b00)

/-- 10_state.md R29: STATUS.PERR is written by PARSE alone, 1 for a malformed text and 0 for a Value; no command
reads it. -/
def Obligations.OnlyParseWritesPerr : Prop :=
  (∀ s : State, (s.hostRead 0x001).extractLsb' 4 1 = if s.status.perr then 1 else 0) ∧
  (∀ (i : Instr) (s t : State), (∀ vd, i ≠ .parse vd) → exec i s = .next t →
    t.status.perr = s.status.perr) ∧
  (∀ (vd : Reg) (s t : State), s.tlen.toNat ≤ s.cfg.TCAP → exec (.parse vd) s = .next t →
    (TextGrammar s.text → t.status.perr = false) ∧ (¬ TextGrammar s.text → t.status.perr = true)) ∧
  (∀ (i : Instr) (s : State) (x : Bool), (∀ vd, i ≠ .parse vd) →
    exec i { s with status := { s.status with perr := x } } =
      mapNext (fun t => { t with status := { t.status with perr := x } }) (exec i s)) ∧
  (∀ (vd : Reg) (s : State) (x : Bool), s.tlen.toNat ≤ s.cfg.TCAP →
    exec (.parse vd) { s with status := { s.status with perr := x } } = exec (.parse vd) s) ∧
  (∀ c, (State.resetOf c).status.perr = false)

/-! ## Values -/

/-- 40_storage_sign.md R93: canonical Values and the integers of the range correspond one to one. The spec marks
this rule as derived. -/
def Obligations.WrapNamesEachIntegerOnce : Prop :=
  ∀ c : Config,
    (∀ x, canonical c x = true → wrapN c (sval c x) = x) ∧
    (∀ z, minInt c ≤ z → z ≤ maxInt c → sval c (wrapN c z) = z) ∧
    (∀ z, canonical c (wrapN c z) = true ∧ minInt c ≤ sval c (wrapN c z) ∧
      sval c (wrapN c z) ≤ maxInt c ∧ (2 ^ c.N : Int) ∣ sval c (wrapN c z) - z)

/-- 40_storage_sign.md R92: what `norm_N` and `zpad_N` do to a limb vector of length `L`, bit by bit and as
numbers. -/
def Obligations.NormAndZpadSetThePadBits : Prop :=
  ∀ (c : Config) (x : LimbVec), isLimbVec c x = true →
    (∀ k, k < c.L * c.W →
      bitAt c (normN c x) k = (if k < c.N then bitAt c x k else bitAt c x (c.N - 1)) ∧
      bitAt c (zpadN c x) k = (if k < c.N then bitAt c x k else 0)) ∧
    canonical c (normN c x) = true ∧ sval c (normN c x) = sval c x ∧
    natOf c (zpadN c x) = uN c x ∧
    (c.P = 0 → normN c x = x ∧ zpadN c x = x) ∧
    (∀ z : Int, wrapN c z = normN c (limbsOf c c.L (z % 2 ^ c.N).toNat))

/-- 40_storage_sign.md R94, R95: the sign bit, and the magnitude as the absolute value with zero pad bits. The spec
marks these equations as derived. -/
def Obligations.MagnitudeIsTheAbsoluteValue : Prop :=
  ∀ (c : Config) (x : LimbVec), canonical c x = true →
    (isNegative c x = true ↔ sval c x < 0) ∧
    natOf c (magnitude c x) = (sval c x).natAbs ∧ natOf c (magnitude c x) ≤ 2 ^ (c.N - 1) ∧
    isLimbVec c (magnitude c x) = true ∧ zpadN c (magnitude c x) = magnitude c x

/-- 40_storage_sign.md R96: `from_magnitude_and_sign` is the signed number wrapped, for magnitudes of any length.
The spec marks this as derived. -/
def Obligations.SignReapplicationWrapsTheSignedNumber : Prop :=
  ∀ (c : Config) (m : LimbVec),
    fromMagnitudeAndSign c m false = wrapN c (natOf c m) ∧
    fromMagnitudeAndSign c m true = wrapN c (-(natOf c m : Int)) ∧
    (natOf c m % 2 ^ c.N = 0 → fromMagnitudeAndSign c m true = wrapN c 0) ∧
    (2 ^ (c.N - 1) ≤ natOf c m % 2 ^ c.N → sval c (fromMagnitudeAndSign c m false) < 0)

/-- 40_storage_sign.md R98, 42_additive.md R124: the most negative value. The spec marks these as derived. -/
def Obligations.MostNegativeValueNegatesToItself : Prop :=
  ∀ c : Config,
    isNegative c (wrapN c (minInt c)) = true ∧
    natOf c (magnitude c (wrapN c (minInt c))) = 2 ^ (c.N - 1) ∧
    (∀ neg, fromMagnitudeAndSign c (magnitude c (wrapN c (minInt c))) neg = wrapN c (minInt c)) ∧
    negate c (wrapN c (minInt c)) = wrapN c (minInt c) ∧
    (∀ x, canonical c x = true → negate c x = x → sval c x = 0 ∨ x = wrapN c (minInt c)) ∧
    (∀ x, canonical c x = true → sval c x ≠ minInt c → sval c (negate c x) = -sval c x)

/-! ## Comparison -/

/-- 41_comparator.md R113: the unsigned comparison orders limb vectors as their numbers. -/
def Obligations.UnsignedComparisonOrdersNumbers : Prop :=
  ∀ (c : Config) (x y : LimbVec), isLimbVec c x = true → isLimbVec c y = true →
    ucompare x y = orderOf (natOf c x) (natOf c y)

/-- 41_comparator.md R110, R111: CMP completes, sets STATUS.CMP to the order of the two integers, and writes nothing
else. The equivalence with the order of the integers is marked as derived in the spec. -/
def Obligations.CmpSetsTheOrderOfTheIntegers : Prop :=
  ∀ (s : State) (va vb : Reg), s.canonicalAt va = true → s.canonicalAt vb = true →
    exec (.cmp va vb) s = .next { s with status := { s.status with
      cmp := if s.intAt va < s.intAt vb then 0b01
        else if s.intAt va = s.intAt vb then 0b00 else 0b10 } }

/-- 41_comparator.md R112: the strict total order, on the three-way result. -/
def Obligations.CompareIsAStrictTotalOrder : Prop :=
  ∀ (c : Config) (a b d : LimbVec),
    canonical c a = true → canonical c b = true → canonical c d = true →
    compareValues c a a = .equal ∧
    (compareValues c a b = .less ↔ compareValues c b a = .greater) ∧
    (compareValues c a b = .less → compareValues c b d = .less → compareValues c a d = .less) ∧
    (compareValues c a b = .equal ↔ a = b)

/-- 41_comparator.md R114: comparison agrees with the difference where it does not wrap. -/
def Obligations.CompareAgreesWithTheDifference : Prop :=
  ∀ (c : Config) (a b : LimbVec), canonical c a = true → canonical c b = true →
    minInt c ≤ sval c b - sval c a → sval c b - sval c a ≤ maxInt c →
    (compareValues c a b = .less ↔ 0 < sval c (sub c b a))

/-! ## Arithmetic -/

/-- 42_additive.md R122, R126: ADD completes with the wrapped sum, for every choice of registers, and writes
nothing else. The closed form is marked as derived in the spec. -/
def Obligations.AddWritesTheWrappedSum : Prop :=
  ∀ (s : State) (vd va vb : Reg), s.canonicalAt va = true → s.canonicalAt vb = true →
    exec (.add vd va vb) s = .next (s.writeV vd (wrapN s.cfg (s.intAt va + s.intAt vb))) ∧
    sval s.cfg (wrapN s.cfg (s.intAt va + s.intAt vb)) =
      (if maxInt s.cfg < s.intAt va + s.intAt vb then s.intAt va + s.intAt vb - 2 ^ s.cfg.N
       else if s.intAt va + s.intAt vb < minInt s.cfg then s.intAt va + s.intAt vb + 2 ^ s.cfg.N
       else s.intAt va + s.intAt vb)

/-- 42_additive.md R123, R127: NEG completes with the wrapped negation and writes nothing else. -/
def Obligations.NegWritesTheWrappedNegation : Prop :=
  ∀ (s : State) (vd va : Reg), s.canonicalAt va = true →
    exec (.neg vd va) s = .next (s.writeV vd (wrapN s.cfg (-s.intAt va)))

/-- 42_additive.md R125, R128: SUB completes with the wrapped difference, which is `add(a, negate(b))`, and writes
nothing else. -/
def Obligations.SubWritesTheWrappedDifference : Prop :=
  ∀ (s : State) (vd va vb : Reg), s.canonicalAt va = true → s.canonicalAt vb = true →
    exec (.sub vd va vb) s = .next (s.writeV vd (wrapN s.cfg (s.intAt va - s.intAt vb))) ∧
    exec (.sub vd va vb) s =
      .next (s.writeV vd (add s.cfg (s.readV va) (negate s.cfg (s.readV vb))))

/-- 42_additive.md R129: the document's laws of the additive engine. -/
def Obligations.AdditiveLaws : Prop :=
  ∀ (c : Config) (a b d : LimbVec),
    canonical c a = true → canonical c b = true → canonical c d = true →
    sub c (add c a b) b = a ∧ sub c a a = wrapN c 0 ∧ add c a b = add c b a ∧
    negate c (negate c a) = a ∧ add c a (wrapN c 0) = a ∧
    add c (add c a b) d = add c a (add c b d)

/-- 43_multiplicative.md R141, R142: MUL completes with the wrapped product and writes nothing else. -/
def Obligations.MulWritesTheWrappedProduct : Prop :=
  ∀ (s : State) (vd va vb : Reg), s.canonicalAt va = true → s.canonicalAt vb = true →
    exec (.mul vd va vb) s = .next (s.writeV vd (wrapN s.cfg (s.intAt va * s.intAt vb)))

/-- 43_multiplicative.md R143: the document's laws of the multiplicative engine. -/
def Obligations.MultiplicativeLaws : Prop :=
  ∀ (c : Config) (a b d : LimbVec),
    canonical c a = true → canonical c b = true → canonical c d = true →
    mul c a b = mul c b a ∧ mul c a (fromSmallInteger c 1) = a ∧
    mul c a (fromSmallInteger c 0) = fromSmallInteger c 0 ∧
    mul c (mul c a b) d = mul c a (mul c b d) ∧
    mul c a (add c b d) = add c (mul c a b) (mul c a d)

/-- 44_divisive.md R153, R154: DIVMOD with a nonzero divisor completes with quotient and remainder truncated toward
zero, both computed from the old registers (30_encoding.md R78), and writes nothing else; the remainder is exact,
and the quotient too but for MIN divided by -1. The closed form is marked as derived in the spec. -/
def Obligations.DivmodTruncatesTowardZero : Prop :=
  ∀ (s : State) (vq vr va vb : Reg), vq ≠ vr → s.canonicalAt va = true → s.canonicalAt vb = true →
    s.intAt vb ≠ 0 →
    exec (.divmod vq vr va vb) s =
      .next ((s.writeV vq (wrapN s.cfg ((s.intAt va).sign * (s.intAt vb).sign *
          ((s.intAt va).natAbs / (s.intAt vb).natAbs : Nat)))).writeV vr
        (wrapN s.cfg ((s.intAt va).sign * ((s.intAt va).natAbs % (s.intAt vb).natAbs : Nat)))) ∧
    sval s.cfg (wrapN s.cfg ((s.intAt va).sign * ((s.intAt va).natAbs % (s.intAt vb).natAbs : Nat))) =
      (s.intAt va).sign * ((s.intAt va).natAbs % (s.intAt vb).natAbs : Nat) ∧
    sval s.cfg (wrapN s.cfg ((s.intAt va).sign * (s.intAt vb).sign *
        ((s.intAt va).natAbs / (s.intAt vb).natAbs : Nat))) =
      if s.intAt va = minInt s.cfg ∧ s.intAt vb = -1 then minInt s.cfg
      else (s.intAt va).sign * (s.intAt vb).sign * ((s.intAt va).natAbs / (s.intAt vb).natAbs : Nat)

/-- 30_encoding.md R76: DIVMOD with one register for both results takes IllegalCommand, whatever the operands. That
the meaning itself does so is the model's reading (DEDUCED, log entry 8): the decoder never gives this command. -/
def Obligations.DivmodOfOneDestinationIsIllegal : Prop :=
  ∀ (s : State) (v va vb : Reg),
    exec (.divmod v v va vb) s = .next (s.raiseFault .illegalCommand) ∧
    ∀ w, decode w ≠ .ok (.divmod v v va vb)

/-- 44_divisive.md R152: the signs of quotient and remainder, and the law they are chosen for. -/
def Obligations.QuotientAndRemainderRecomposeTheDividend : Prop :=
  ∀ (c : Config) (a b : LimbVec), canonical c a = true → canonical c b = true → sval c b ≠ 0 →
    ∃ q r, divmod c a b = .ok (q, r) ∧
      q = fromMagnitudeAndSign c (udivmod c (magnitude c a) (magnitude c b)).1
        (isNegative c a != isNegative c b) ∧
      r = fromMagnitudeAndSign c (udivmod c (magnitude c a) (magnitude c b)).2 (isNegative c a) ∧
      add c (mul c q b) r = a ∧ (sval c r).natAbs < (sval c b).natAbs ∧
      (sval c r ≠ 0 → isNegative c r = isNegative c a)

/-! ## Construction and conversion -/

/-- 45_construction_conversion.md R170: `from_small_integer` reduces modulo `2^N`, exactly when `N >= 128`, and LDI
writes it for the whole of IMM read as a signed integer, and nothing else. -/
def Obligations.LdiWritesTheWrappedImmediate : Prop :=
  (∀ (s : State) (vd : Reg),
    exec (.ldi vd) s = .next (s.writeV vd (wrapN s.cfg s.imm.toInt))) ∧
  (∀ (c : Config) (i : Int), -2 ^ 127 ≤ i → i ≤ 2 ^ 127 - 1 →
    fromSmallInteger c i = wrapN c i ∧
    (128 ≤ c.N → sval c (fromSmallInteger c i) = i) ∧
    minInt c ≤ sval c (fromSmallInteger c i) ∧ sval c (fromSmallInteger c i) ≤ maxInt c ∧
    (2 ^ c.N : Int) ∣ sval c (fromSmallInteger c i) - i)

/-- 45_construction_conversion.md R174, R175: PARSE of a well-formed text completes with its decimal value wrapped,
clears PERR, and writes nothing else. The closed form is marked as derived in the spec; the character codes are
its general knowledge (log entry 12). -/
def Obligations.ParseWritesTheWrappedDecimalValue : Prop :=
  ∀ (s : State) (vd : Reg) (sign digits : List Byte), s.tlen.toNat ≤ s.cfg.TCAP →
    s.text = sign ++ digits → LeadingSign sign → DigitString digits →
    exec (.parse vd) s = .next { s.writeV vd (wrapN s.cfg
        (if sign = [0x2D] then -(decimalValue digits : Int) else decimalValue digits)) with
      status := { s.status with perr := false } }

/-- 45_construction_conversion.md R181, R187: FMT completes with the canonical decimal text of the register's integer
in the first bytes of the buffer and its length in TLEN; the text fits; nothing else changes. The closed form is
marked as derived in the spec; the character codes are its general knowledge (log entry 12). -/
def Obligations.FmtWritesTheDecimalText : Prop :=
  ∀ (s : State) (va : Reg), s.canonicalAt va = true →
    ∃ t, exec (.fmt va) s = .next t ∧
      t = { s with txt := t.txt, tlen := BitVec.ofNat 16 (decimalText (s.intAt va)).length } ∧
      (decimalText (s.intAt va)).length ≤ 1 + dmax s.cfg.N ∧
      (decimalText (s.intAt va)).length ≤ s.cfg.TCAP ∧
      (∀ k (h : k < (decimalText (s.intAt va)).length),
        t.txt.read k = (decimalText (s.intAt va))[k]) ∧
      (∀ k, (decimalText (s.intAt va)).length ≤ k → t.txt.read k = s.txt.read k)

/-- 45_construction_conversion.md R188: FMT of a register and PARSE of what it wrote, as two host writes with nothing
between, leave the same Value in the destination, for every Value. -/
def Obligations.FmtThenParseReproducesTheValue : Prop :=
  ∀ (s : State) (va vd : Reg) (rest : List HostAction), s.inv = true → s.status.fault = false →
    s.pending = .write 0x000 (encode (.fmt va)) :: .write 0x000 (encode (.parse vd)) :: rest →
    ∃ t, State.after 2 s = some t ∧ t.readV vd = s.readV va ∧ t.status.perr = false ∧
      t.status.fault = false ∧ t.pending = rest ∧ SameRegs s t [vd]

/-- 30_encoding.md R81: the pseudo-command `LDI vd, #i`, five host writes, loads any 128-bit integer. -/
def Obligations.PseudoLdiLoadsItsInteger : Prop :=
  ∀ (s : State) (vd : Reg) (i : Int), s.status.fault = false → -2 ^ 127 ≤ i → i ≤ 2 ^ 127 - 1 →
    ∃ t, State.after 5 (s.withScript (scriptLdi vd i)) = some t ∧
      t.readV vd = wrapN s.cfg i ∧ t.imm.toInt = i ∧ SameRegs s t [vd] ∧ t.status = s.status ∧
      t.tlen = s.tlen ∧ t.txt = s.txt ∧ t.pending = s.pending

/-! ## Frames and who reads what -/

/-- 10_state.md R22, R28, 42_additive.md R126 to R128, 43_multiplicative.md R142, 44_divisive.md R154,
45_construction_conversion.md R171: the commands that write value registers change nothing but their
destinations; a DIVMOD that faults changes nothing but the fault fields. -/
def Obligations.RegisterCommandsFrame : Prop :=
  ∀ (s t : State) (vd vr va vb : Reg),
    (exec (.add vd va vb) s = .next t → RegisterFrame s t [vd]) ∧
    (exec (.sub vd va vb) s = .next t → RegisterFrame s t [vd]) ∧
    (exec (.neg vd va) s = .next t → RegisterFrame s t [vd]) ∧
    (exec (.mul vd va vb) s = .next t → RegisterFrame s t [vd]) ∧
    (exec (.ldi vd) s = .next t → RegisterFrame s t [vd]) ∧
    (exec (.divmod vd vr va vb) s = .next t → RegisterFrame s t [vd, vr] ∨ FaultFrame s t)

/-- 41_comparator.md R111: CMP changes STATUS.CMP alone. -/
def Obligations.CmpFrame : Prop :=
  ∀ (s t : State) (va vb : Reg), exec (.cmp va vb) s = .next t →
    SameRegs s t [] ∧ t.status.fault = s.status.fault ∧ t.status.fcause = s.status.fcause ∧
    t.status.perr = s.status.perr ∧ t.imm = s.imm ∧ t.tlen = s.tlen ∧ SameText s t ∧ SameHost s t

/-- 45_construction_conversion.md R175: PARSE changes its destination and STATUS.PERR alone, and no byte of the
buffer; one that faults changes nothing but the fault fields; one that ends in ParseError keeps its destination
too. -/
def Obligations.ParseFrame : Prop :=
  ∀ (s t : State) (vd : Reg), exec (.parse vd) s = .next t →
    (SameRegs s t [vd] ∧ t.status.fault = s.status.fault ∧ t.status.fcause = s.status.fcause ∧
      t.status.cmp = s.status.cmp ∧ t.imm = s.imm ∧ t.tlen = s.tlen ∧ SameText s t ∧
      SameHost s t ∧ (t.status.perr = true → SameRegs s t [])) ∨ FaultFrame s t

/-- 45_construction_conversion.md R181, 20_memory.md R64: FMT stores to the indices below the length of its text
and changes no other byte; it changes TLEN and no value register, flag or immediate. -/
def Obligations.FmtFrame : Prop :=
  ∀ (s t : State) (va : Reg), exec (.fmt va) s = .next t →
    SameRegs s t [] ∧ t.status = s.status ∧ t.imm = s.imm ∧ SameHost s t ∧
    t.tlen = BitVec.ofNat 16 (toText s.cfg (s.readV va)).length ∧
    (∀ i, (toText s.cfg (s.readV va)).length ≤ i → t.txt.read i = s.txt.read i)

/-- 20_memory.md R64: PARSE reads the bytes below TLEN and writes neither bytes nor TLEN; FMT writes the bytes of
its text and TLEN and reads neither; no other command touches either. -/
def Obligations.TextIsReachedByParseAndFmtAlone : Prop :=
  (∀ (s t : State) (vd : Reg), exec (.parse vd) s = .next t → t.txt = s.txt ∧ t.tlen = s.tlen) ∧
  (∀ (s : State) (vd : Reg) (m : Memory), (∀ i, i < s.tlen.toNat → m.read i = s.txt.read i) →
    exec (.parse vd) { s with txt := m } = mapNext (fun t => { t with txt := m }) (exec (.parse vd) s)) ∧
  (∀ (s t : State) (va : Reg), exec (.fmt va) s = .next t →
    t.tlen = BitVec.ofNat 16 (toText s.cfg (s.readV va)).length ∧
    (∀ i, (toText s.cfg (s.readV va)).length ≤ i → t.txt.read i = s.txt.read i) ∧
    ∀ (m : Memory) (n : BitVec 16), ∃ t', exec (.fmt va) { s with txt := m, tlen := n } = .next t' ∧
      t' = { t with txt := t'.txt } ∧
      ∀ i, i < (toText s.cfg (s.readV va)).length → t'.txt.read i = t.txt.read i) ∧
  (∀ (i : Instr) (s : State) (m : Memory) (n : BitVec 16), (∀ vd, i ≠ .parse vd) →
    (∀ va, i ≠ .fmt va) →
    exec i { s with txt := m, tlen := n } =
      mapNext (fun t => { t with txt := m, tlen := n }) (exec i s))

/-- 10_state.md R23: IMM is read by LDI only, and no command writes it. -/
def Obligations.ImmIsReadByLdiAlone : Prop :=
  (∀ (i : Instr) (s t : State), exec i s = .next t → t.imm = s.imm) ∧
  (∀ (i : Instr) (s : State) (m : BitVec 128), (∀ vd, i ≠ .ldi vd) →
    exec i { s with imm := m } = mapNext (fun t => { t with imm := m }) (exec i s))

/-- 70_reset_and_hazards.md R227: what a command does depends on nothing but the state and the command word; the
host's lists, which are the model's own (log entries 2 and 3), have no part in it. -/
def Obligations.CommandsIgnoreTheHostsLists : Prop :=
  ∀ (i : Instr) (s : State) (p : List HostAction) (q : List HostWord),
    exec i { s with pending := p, returned := q } =
      mapNext (fun t => { t with pending := p, returned := q }) (exec i s)

/-! ## The whole machine -/

/-- 10_state.md R21, R30, R28: the state after reset meets the invariant, in every configuration. -/
def Obligations.ResetMeetsTheInvariant : Prop :=
  ∀ c : Config, (State.resetOf c).inv = true

/-- 10_state.md R21, R28, R30: every step, from every state that meets the invariant, gives a state that meets it:
every value register holds a canonical Value, the text buffer keeps its form, STATUS holds only what the rules
produce. -/
def Obligations.StepKeepsTheInvariant : Prop :=
  ∀ s t : State, s.inv = true → step s = .next t → t.inv = true

/-- 70_reset_and_hazards.md R225, R227: in every state that meets the invariant the step has a next state: no
command, host action or operand value stops the model. -/
def Obligations.StepNeverStops : Prop :=
  ∀ s : State, s.inv = true → ∃ t, step s = .next t

/-- 00_scope.md R6: no result depends on the limb width. Two units that differ in `W` alone and hold the same
integers, step by step, go on holding the same integers, flags, bytes and faults, and return the same data. -/
def Obligations.NoResultDependsOnTheLimbWidth : Prop :=
  ∀ s t : State, s.inv = true → t.inv = true → SameButWidth s t →
    ∃ s' t', step s = .next s' ∧ step t = .next t' ∧ SameButWidth s' t'
end

