-- ==== Sys2Proof/Laws/Decode.lean ====
section
/-! SUPPORT. The fields of a command word as numbers, and the fields of an encoded word. -/

namespace Sys2Proof

/-! ## The fields of any word -/

theorem opField_toNat (w : HostWord) : (opField w).toNat = w.toNat % 256 := by
  simp [opField, BitVec.extractLsb'_toNat]

theorem zField_toNat (w : HostWord) : (zField w).toNat = w.toNat / 2 ^ 24 % 256 := by
  simp [zField, BitVec.extractLsb'_toNat, Nat.shiftRight_eq_div_pow]

theorem vdField_val (w : HostWord) : (vdField w).val = w.toNat / 2 ^ 8 % 16 := by
  show (w.extractLsb' 8 4).toNat = _
  simp [BitVec.extractLsb'_toNat, Nat.shiftRight_eq_div_pow]

theorem vaField_val (w : HostWord) : (vaField w).val = w.toNat / 2 ^ 12 % 16 := by
  show (w.extractLsb' 12 4).toNat = _
  simp [BitVec.extractLsb'_toNat, Nat.shiftRight_eq_div_pow]

theorem vbField_val (w : HostWord) : (vbField w).val = w.toNat / 2 ^ 16 % 16 := by
  show (w.extractLsb' 16 4).toNat = _
  simp [BitVec.extractLsb'_toNat, Nat.shiftRight_eq_div_pow]

theorem vrField_val (w : HostWord) : (vrField w).val = w.toNat / 2 ^ 20 % 16 := by
  show (w.extractLsb' 20 4).toNat = _
  simp [BitVec.extractLsb'_toNat, Nat.shiftRight_eq_div_pow]

/-! ## The fields of an encoded word (30_encoding.md R71) -/

theorem commandWord_toNat (op : Nat) (vd va vb vr : Reg) (h : op < 256) :
    (commandWord op vd va vb vr).toNat =
      op + vd.val * 2 ^ 8 + va.val * 2 ^ 12 + vb.val * 2 ^ 16 + vr.val * 2 ^ 20 := by
  have h1 := vd.isLt
  have h2 := va.isLt
  have h3 := vb.isLt
  have h4 := vr.isLt
  rw [commandWord, BitVec.toNat_ofNat, Nat.mod_eq_of_lt]
  omega

theorem commandWord_op_z (op : Nat) (vd va vb vr : Reg) (h : op < 256) :
    (opField (commandWord op vd va vb vr)).toNat = op ∧ zField (commandWord op vd va vb vr) = 0 := by
  have h1 := vd.isLt
  have h2 := va.isLt
  have h3 := vb.isLt
  have h4 := vr.isLt
  constructor
  · rw [opField_toNat, commandWord_toNat op vd va vb vr h]
    omega
  · apply BitVec.eq_of_toNat_eq
    rw [zField_toNat, commandWord_toNat op vd va vb vr h, show (0 : BitVec 8).toNat = 0 from rfl]
    omega

theorem commandWord_regs (op : Nat) (vd va vb vr : Reg) (h : op < 256) :
    vdField (commandWord op vd va vb vr) = vd ∧ vaField (commandWord op vd va vb vr) = va ∧
      vbField (commandWord op vd va vb vr) = vb ∧ vrField (commandWord op vd va vb vr) = vr := by
  have h1 := vd.isLt
  have h2 := va.isLt
  have h3 := vb.isLt
  have h4 := vr.isLt
  refine ⟨Fin.ext ?_, Fin.ext ?_, Fin.ext ?_, Fin.ext ?_⟩
  · rw [vdField_val, commandWord_toNat op vd va vb vr h]; omega
  · rw [vaField_val, commandWord_toNat op vd va vb vr h]; omega
  · rw [vbField_val, commandWord_toNat op vd va vb vr h]; omega
  · rw [vrField_val, commandWord_toNat op vd va vb vr h]; omega

end Sys2Proof
end

