-- ==== Sys2Proof/Laws/Limbs.lean ====
section
/-! SUPPORT. What the configuration's derived numbers satisfy, and the spec lemma of every function of
Machine/Limbs.lean: the number its result stands for and the shape of its result. -/

namespace Sys2Proof.Machine

variable (c : Config)

/-! ## The configuration -/

theorem W_pos : 0 < c.W := c.one_le_W

theorem N_le_bits : c.N ≤ c.L * c.W := by
  have h := Nat.div_add_mod (c.N + c.W - 1) c.W
  have hm := Nat.mod_lt (c.N + c.W - 1) (W_pos c)
  have := W_pos c
  rw [Nat.mul_comm] at h
  simp only [Config.L]
  omega

theorem P_lt_W : c.P < c.W := by
  have h := Nat.div_add_mod (c.N + c.W - 1) c.W
  have := W_pos c
  have := c.four_le_N
  rw [Nat.mul_comm] at h
  simp only [Config.P, Config.L]
  omega

theorem N_add_P : c.N + c.P = c.L * c.W := by
  have := N_le_bits c
  simp only [Config.P]
  omega

theorem L_pos : 0 < c.L := by
  have := N_le_bits c
  have := c.four_le_N
  rcases Nat.eq_zero_or_pos c.L with h | h
  · simp [h] at *; omega
  · exact h

/-- The number of values of a limb. -/
theorem base_pos : 0 < 2 ^ c.W := Nat.two_pow_pos _

theorem pow_succ_limb (k : Nat) : 2 ^ ((k + 1) * c.W) = 2 ^ c.W * 2 ^ (k * c.W) := by
  rw [← pow_add]; congr 1; ring

/-! ## Limb vectors and numbers -/

/-- Every limb is below `2^W`. -/
abbrev LimbsOk (x : LimbVec) : Prop := ∀ l ∈ x, l < 2 ^ c.W

theorem isLimbVec_iff (x : LimbVec) : isLimbVec c x = true ↔ x.length = c.L ∧ LimbsOk c x := by
  simp [isLimbVec, LimbsOk]

theorem natOf_lt : ∀ x : LimbVec, LimbsOk c x → natOf c x < 2 ^ (x.length * c.W)
  | [], _ => by simp [natOf]
  | l :: x, h => by
    have hx := natOf_lt x fun a ha => h a (List.mem_cons_of_mem _ ha)
    have hl : l < 2 ^ c.W := h l List.mem_cons_self
    simp only [natOf, List.length_cons, pow_succ_limb]
    calc l + 2 ^ c.W * natOf c x < 2 ^ c.W + 2 ^ c.W * natOf c x := by omega
      _ = 2 ^ c.W * (natOf c x + 1) := by ring
      _ ≤ 2 ^ c.W * 2 ^ (x.length * c.W) := Nat.mul_le_mul_left _ hx

@[simp] theorem limbsOf_length : ∀ K n, (limbsOf c K n).length = K
  | 0, _ => rfl
  | K + 1, n => by simp [limbsOf, limbsOf_length K]

theorem limbsOf_ok : ∀ K n, LimbsOk c (limbsOf c K n)
  | 0, _ => by simp [limbsOf, LimbsOk]
  | K + 1, n => by
    intro l hl
    rcases List.mem_cons.mp hl with rfl | hl
    · exact Nat.mod_lt _ (base_pos c)
    · exact limbsOf_ok K _ l hl

theorem natOf_limbsOf : ∀ K n, natOf c (limbsOf c K n) = n % 2 ^ (K * c.W)
  | 0, n => by simp [limbsOf, natOf, Nat.mod_one]
  | K + 1, n => by
    simp only [limbsOf, natOf, natOf_limbsOf K, pow_succ_limb]
    rw [Nat.mod_mul]

theorem limbsOf_natOf : ∀ x : LimbVec, LimbsOk c x → limbsOf c x.length (natOf c x) = x
  | [], _ => rfl
  | l :: x, h => by
    have hl : l < 2 ^ c.W := h l List.mem_cons_self
    have ih := limbsOf_natOf x fun a ha => h a (List.mem_cons_of_mem _ ha)
    simp only [natOf, List.length_cons, limbsOf, List.cons.injEq]
    refine ⟨?_, ?_⟩
    · rw [Nat.add_mul_mod_self_left, Nat.mod_eq_of_lt hl]
    · rw [Nat.add_mul_div_left _ _ (base_pos c), Nat.div_eq_of_lt hl, Nat.zero_add, ih]

/-- Two limb vectors of one length are equal when their numbers are. -/
theorem natOf_injective {x y : LimbVec} (hx : LimbsOk c x) (hy : LimbsOk c y)
    (hl : x.length = y.length) (h : natOf c x = natOf c y) : x = y := by
  rw [← limbsOf_natOf c x hx, ← limbsOf_natOf c y hy, h, hl]

/-! ## Bits -/

theorem limbAt_eq : ∀ (x : LimbVec) (i : Nat), LimbsOk c x →
    limbAt x i = natOf c x / 2 ^ (i * c.W) % 2 ^ c.W
  | [], i, _ => by simp [limbAt, natOf]
  | l :: x, 0, h => by
    have hl : l < 2 ^ c.W := h l List.mem_cons_self
    simp [limbAt, natOf, Nat.mod_eq_of_lt hl]
  | l :: x, i + 1, h => by
    have hl : l < 2 ^ c.W := h l List.mem_cons_self
    have ih := limbAt_eq x i fun a ha => h a (List.mem_cons_of_mem _ ha)
    simp only [limbAt, List.getD_cons_succ] at ih ⊢
    rw [ih, natOf, pow_succ_limb, ← Nat.div_div_eq_div_mul, Nat.add_mul_div_left _ _ (base_pos c),
      Nat.div_eq_of_lt hl, Nat.zero_add]

/-- `bit(x, k)` is bit `k` of `nat(x)`. -/
theorem bitAt_eq (x : LimbVec) (k : Nat) (h : LimbsOk c x) :
    bitAt c x k = natOf c x / 2 ^ k % 2 := by
  have hr : k % c.W < c.W := Nat.mod_lt _ (W_pos c)
  have hk : k / c.W * c.W + k % c.W = k := by rw [Nat.mul_comm]; exact Nat.div_add_mod k c.W
  have hp : 2 ^ c.W = 2 ^ (k % c.W) * (2 * 2 ^ (c.W - k % c.W - 1)) := by
    rw [← pow_succ', ← pow_add]; congr 1; omega
  rw [bitAt, limbAt_eq c x _ h, hp, Nat.mod_mul_right_div_self, Nat.div_div_eq_div_mul, ← pow_add, hk,
    Nat.mod_mul_right_mod]

theorem bitAt_lt_two (x : LimbVec) (k : Nat) : bitAt c x k < 2 := Nat.mod_lt _ (by decide)

@[simp] theorem setBit_length (x : LimbVec) (k b : Nat) : (setBit c x k b).length = x.length := by
  simp [setBit]

theorem limb_setBit_lt (l k b : Nat) (hl : l < 2 ^ c.W) (hk : k < c.W) (hb : b < 2) :
    l / 2 ^ k % 2 * 2 ^ k ≤ l ∧ l - l / 2 ^ k % 2 * 2 ^ k + b * 2 ^ k < 2 ^ c.W := by
  have hp : 2 ^ c.W = 2 ^ k * (2 * 2 ^ (c.W - k - 1)) := by
    rw [← pow_succ', ← pow_add]; congr 1; omega
  have hpos : 0 < 2 ^ k := Nat.two_pow_pos k
  generalize 2 ^ (c.W - k - 1) = m at hp
  generalize 2 ^ k = t at *
  have hq : l / t < 2 * m := Nat.div_lt_of_lt_mul (hp ▸ hl)
  have hdm := Nat.div_add_mod l t
  have hrem := Nat.mod_lt l hpos
  have h2 := Nat.div_add_mod (l / t) 2
  have hq2 : (l / t) / 2 < m := by omega
  generalize l / t = q at *
  generalize q / 2 = h at *
  rw [hp]
  have hl' : l = t * (2 * h + q % 2) + l % t := by rw [h2]; exact hdm.symm
  have e1 : t * (2 * h + q % 2) = 2 * (t * h) + q % 2 * t := by ring
  have e2 : t * (2 * m) = 2 * (t * m) := by ring
  have e3 : t * (h + 1) ≤ t * m := Nat.mul_le_mul_left _ hq2
  have e4 : t * (h + 1) = t * h + t := by ring
  have hbt : b * t ≤ t := by nlinarith
  constructor <;> omega

theorem setBit_ok (x : LimbVec) (k b : Nat) (h : LimbsOk c x) (hb : b < 2) :
    LimbsOk c (setBit c x k b) := by
  intro l hl
  rcases List.mem_or_eq_of_mem_set hl with hl | rfl
  · exact h l hl
  · have hlimb : limbAt x (k / c.W) < 2 ^ c.W := by
      rw [limbAt_eq c x _ h]; exact Nat.mod_lt _ (base_pos c)
    exact (limb_setBit_lt c _ _ b hlimb (Nat.mod_lt _ (W_pos c)) hb).2

theorem natOf_set : ∀ (x : LimbVec) (i v : Nat), i < x.length →
    natOf c (x.set i v) + limbAt x i * 2 ^ (i * c.W) = natOf c x + v * 2 ^ (i * c.W)
  | [], _, _, h => by simp at h
  | l :: x, 0, v, _ => by simp [natOf, limbAt]; omega
  | l :: x, i + 1, v, h => by
    have ih := natOf_set x i v (by simpa using h)
    simp only [List.set_cons_succ, natOf, limbAt, List.getD_cons_succ, pow_succ_limb] at ih ⊢
    have e1 : ∀ a : Nat, a * (2 ^ c.W * 2 ^ (i * c.W)) = 2 ^ c.W * (a * 2 ^ (i * c.W)) := fun a => by
      ring
    rw [e1, e1, Nat.add_assoc, ← Nat.mul_add, ih, Nat.mul_add, Nat.add_assoc]

/-- Setting bit `k` changes the number by that bit alone. -/
theorem natOf_setBit (x : LimbVec) (k b : Nat) (h : LimbsOk c x) (hk : k < x.length * c.W) :
    natOf c (setBit c x k b) + bitAt c x k * 2 ^ k = natOf c x + b * 2 ^ k := by
  have hi : k / c.W < x.length := Nat.div_lt_of_lt_mul (by rwa [Nat.mul_comm])
  have hlimb : limbAt x (k / c.W) < 2 ^ c.W := by
    rw [limbAt_eq c x _ h]; exact Nat.mod_lt _ (base_pos c)
  have hle := (limb_setBit_lt c _ _ 0 hlimb (Nat.mod_lt k (W_pos c)) (by decide)).1
  have hset := natOf_set c x (k / c.W)
    (limbAt x (k / c.W) - bitAt c x k * 2 ^ (k % c.W) + b * 2 ^ (k % c.W)) hi
  have hkk : 2 ^ k = 2 ^ (k % c.W) * 2 ^ (k / c.W * c.W) := by
    rw [← pow_add]; congr 1; rw [Nat.mul_comm, Nat.add_comm]; exact (Nat.div_add_mod k c.W).symm
  have hb : bitAt c x k * 2 ^ (k % c.W) ≤ limbAt x (k / c.W) := hle
  rw [setBit, hkk]
  generalize natOf c (x.set _ _) = n' at *
  generalize 2 ^ (k / c.W * c.W) = u at *
  generalize limbAt x (k / c.W) = l at *
  generalize 2 ^ (k % c.W) = t at *
  obtain ⟨d, rfl⟩ := Nat.exists_eq_add_of_le hb
  rw [Nat.add_sub_cancel_left] at hset
  have e : ∀ a : Nat, a * (t * u) = a * t * u := fun a => (Nat.mul_assoc _ _ _).symm
  rw [e, e]
  rw [Nat.add_mul, Nat.add_mul] at hset
  omega

end Sys2Proof.Machine
end

