-- ==== Sys2Proof/Laws/Sign.lean ====
section
/-! SUPPORT. The spec lemmas of `norm_N`, `zpad_N`, `twos_raw` and `from_magnitude_and_sign`: the number
each result stands for, and the shape of each result. -/

namespace Sys2Proof.Machine

variable (c : Config)

/-! ## Setting a run of bits -/

/-- Setting the bits `a` to `a + n - 1` to `b` replaces that part of the number. -/
theorem foldl_setBit (b : Nat) (hb : b < 2) : ∀ (n a : Nat) (x : LimbVec), LimbsOk c x →
    a + n ≤ x.length * c.W →
    LimbsOk c ((List.range' a n).foldl (fun r k => setBit c r k b) x) ∧
    ((List.range' a n).foldl (fun r k => setBit c r k b) x).length = x.length ∧
    natOf c ((List.range' a n).foldl (fun r k => setBit c r k b) x) =
      natOf c x % 2 ^ a + b * (2 ^ (a + n) - 2 ^ a) + natOf c x / 2 ^ (a + n) * 2 ^ (a + n)
  | 0, a, x, h, _ => by
    refine ⟨h, rfl, ?_⟩
    have := Nat.div_add_mod (natOf c x) (2 ^ a)
    simp only [List.range'_zero, List.foldl_nil, Nat.add_zero, Nat.sub_self, Nat.mul_zero]
    rw [Nat.mul_comm] at this
    omega
  | n + 1, a, x, h, hn => by
    have hset := natOf_setBit c x a b h (by omega)
    have hok := setBit_ok c x a b h hb
    obtain ⟨i1, i2, i3⟩ := foldl_setBit b hb n (a + 1) (setBit c x a b) hok (by simp; omega)
    simp only [List.range'_succ, List.foldl_cons]
    refine ⟨i1, by simpa using i2, ?_⟩
    rw [i3]
    rw [bitAt_eq c x a h] at hset
    have hr : natOf c x % 2 ^ a < 2 ^ a := Nat.mod_lt _ (Nat.two_pow_pos a)
    have hdm := Nat.div_add_mod (natOf c x) (2 ^ a)
    have h2 := Nat.div_add_mod (natOf c x / 2 ^ a) 2
    have e1 : 2 ^ (a + 1) = 2 * 2 ^ a := by rw [pow_succ]; ring
    have e2 : natOf c x / 2 ^ a / 2 = natOf c x / 2 ^ (a + 1) := by
      rw [Nat.div_div_eq_div_mul, pow_succ]
    -- the number after setting the first bit, and its two halves
    have hX' : natOf c (setBit c x a b) =
        natOf c x / 2 ^ (a + 1) * 2 ^ (a + 1) + (b * 2 ^ a + natOf c x % 2 ^ a) := by
      rw [← e2, e1]
      generalize natOf c x / 2 ^ a = q at *
      generalize 2 ^ a = t at *
      have : q / 2 * (2 * t) + q % 2 * t = t * q := by
        calc q / 2 * (2 * t) + q % 2 * t = t * (2 * (q / 2) + q % 2) := by ring
          _ = t * q := by rw [h2]
      omega
    have hlow : b * 2 ^ a + natOf c x % 2 ^ a < 2 ^ (a + 1) := by
      rw [e1]
      have : b * 2 ^ a ≤ 2 ^ a := by
        have := Nat.mul_le_mul_right (2 ^ a) (Nat.lt_succ_iff.mp hb)
        omega
      omega
    have hmod : natOf c (setBit c x a b) % 2 ^ (a + 1) = b * 2 ^ a + natOf c x % 2 ^ a := by
      rw [hX', Nat.mul_add_mod_self_right, Nat.mod_eq_of_lt hlow]
    have hdiv : natOf c (setBit c x a b) / 2 ^ (a + 1) = natOf c x / 2 ^ (a + 1) := by
      rw [hX', Nat.add_comm, Nat.add_mul_div_right _ _ (Nat.two_pow_pos _), Nat.div_eq_of_lt hlow,
        Nat.zero_add]
    have hdiv2 : natOf c (setBit c x a b) / 2 ^ (a + 1 + n) = natOf c x / 2 ^ (a + (n + 1)) := by
      rw [pow_add, ← Nat.div_div_eq_div_mul, hdiv, Nat.div_div_eq_div_mul, ← pow_add,
        Nat.add_assoc, Nat.add_comm 1 n]
    have hidx : a + 1 + n = a + (n + 1) := by omega
    rw [hmod, hdiv2, hidx]
    have hle : 2 ^ (a + 1) ≤ 2 ^ (a + (n + 1)) := Nat.pow_le_pow_right (by decide) (by omega)
    generalize 2 ^ (a + (n + 1)) = u at *
    rw [e1] at *
    generalize 2 ^ a = t at *
    have : b * (u - 2 * t) + b * t = b * (u - t) := by rw [← Nat.mul_add]; congr 1; omega
    omega

/-- What `norm_N` and `zpad_N` do to a limb vector of length `L` (40_storage_sign.md R92): the pad bits take
the value `b`. -/
theorem setPads (b : Nat) (hb : b < 2) (x : LimbVec) (h : isLimbVec c x = true) :
    isLimbVec c ((padBits c).foldl (fun r k => setBit c r k b) x) = true ∧
    natOf c ((padBits c).foldl (fun r k => setBit c r k b) x) =
      uN c x + b * (2 ^ (c.L * c.W) - 2 ^ c.N) := by
  obtain ⟨hl, hx⟩ := (isLimbVec_iff c x).mp h
  have hNP := N_add_P c
  obtain ⟨h1, h2, h3⟩ := foldl_setBit c b hb c.P c.N x hx (by rw [hl, hNP])
  refine ⟨(isLimbVec_iff c _).mpr ⟨by rw [padBits, h2, hl], h1⟩, ?_⟩
  have hlt : natOf c x < 2 ^ (c.N + c.P) := by rw [hNP, ← hl]; exact natOf_lt c x hx
  rw [padBits, h3, Nat.div_eq_of_lt hlt, hNP, Nat.zero_mul, Nat.add_zero, uN]

theorem normN_isLimbVec (x : LimbVec) (h : isLimbVec c x = true) : isLimbVec c (normN c x) = true :=
  (setPads c _ (bitAt_lt_two c x _) x h).1

/-- The number of `norm_N(x)`: the low `N` bits, and every pad bit if bit `N-1` is set. -/
theorem natOf_normN (x : LimbVec) (h : isLimbVec c x = true) :
    natOf c (normN c x) = uN c x + bitAt c x (c.N - 1) * (2 ^ (c.L * c.W) - 2 ^ c.N) :=
  (setPads c _ (bitAt_lt_two c x _) x h).2

theorem zpadN_isLimbVec (x : LimbVec) (h : isLimbVec c x = true) : isLimbVec c (zpadN c x) = true :=
  (setPads c 0 (by decide) x h).1

/-! ## `twos_raw` (40_storage_sign.md R99) -/

@[simp] theorem twosLoop_length : ∀ (x : LimbVec) (k : Nat), (twosLoop c k x).length = x.length
  | [], _ => rfl
  | _ :: x, _ => by simp [twosLoop, twosLoop_length x]

theorem twosLoop_ok : ∀ (x : LimbVec) (k : Nat), LimbsOk c (twosLoop c k x)
  | [], _ => by simp [twosLoop, LimbsOk]
  | _ :: x, k => by
    intro l hl
    rcases List.mem_cons.mp hl with rfl | hl
    · exact Nat.mod_lt _ (base_pos c)
    · exact twosLoop_ok x _ l hl

/-- The loop of `twos_raw` computes the complement plus the carry, truncated. -/
theorem natOf_twosLoop : ∀ (x : LimbVec) (k : Nat), LimbsOk c x →
    natOf c (twosLoop c k x) = (2 ^ (x.length * c.W) - 1 - natOf c x + k) % 2 ^ (x.length * c.W)
  | [], k, _ => by simp [twosLoop, natOf, Nat.mod_one]
  | l :: x, k, h => by
    have hx : LimbsOk c x := fun a ha => h a (List.mem_cons_of_mem _ ha)
    have hl : l < 2 ^ c.W := h l List.mem_cons_self
    have hlt := natOf_lt c x hx
    simp only [twosLoop, natOf, List.length_cons, natOf_twosLoop x _ hx, pow_succ_limb]
    generalize natOf c x = n at *
    generalize 2 ^ (x.length * c.W) = u at *
    generalize 2 ^ c.W = B at *
    have e : B * u - 1 - (l + B * n) + k = B * (u - 1 - n) + (B - 1 - l + k) := by
      obtain ⟨d, rfl⟩ := Nat.exists_eq_add_of_lt hlt
      have e1 : B * (n + d + 1) = B * n + B * d + B := by ring
      have e2 : n + d + 1 - 1 - n = d := by omega
      rw [e1, e2]
      omega
    have e2 : ∀ t : Nat, (t + B * (u - 1 - n)) / B = t / B + (u - 1 - n) := fun t =>
      Nat.add_mul_div_left _ _ (by omega)
    rw [e, Nat.add_comm (B * (u - 1 - n)), Nat.mod_mul, e2, Nat.add_mul_mod_self_left,
      Nat.add_comm (_ / B)]

theorem twosRaw_isLimbVec (x : LimbVec) (h : isLimbVec c x = true) :
    isLimbVec c (twosRaw c x) = true :=
  (isLimbVec_iff c _).mpr
    ⟨by rw [twosRaw, twosLoop_length, ((isLimbVec_iff c x).mp h).1], twosLoop_ok c x 1⟩

/-- R99: `nat(twos_raw(x)) = (2^(L*W) - nat(x)) mod 2^(L*W)`. -/
theorem natOf_twosRaw (x : LimbVec) (h : isLimbVec c x = true) :
    natOf c (twosRaw c x) = (2 ^ (c.L * c.W) - natOf c x) % 2 ^ (c.L * c.W) := by
  obtain ⟨hl, hx⟩ := (isLimbVec_iff c x).mp h
  have hlt := natOf_lt c x hx
  rw [twosRaw, natOf_twosLoop c x 1 hx, hl]
  rw [hl] at hlt
  congr 1
  omega

/-- `magnitude` gives a limb vector of length `L` (40_storage_sign.md R95). -/
theorem magnitude_isLimbVec (x : LimbVec) (h : isLimbVec c x = true) :
    isLimbVec c (magnitude c x) = true := by
  rw [magnitude]
  split
  · exact twosRaw_isLimbVec c x h
  · exact h

theorem limbsOf_isLimbVec (n : Nat) : isLimbVec c (limbsOf c c.L n) = true :=
  (isLimbVec_iff c _).mpr ⟨limbsOf_length c _ _, limbsOf_ok c _ _⟩

/-! ## Canonical form (40_storage_sign.md R91) -/

/-- A limb vector of length `L` is canonical exactly when its number is that of its normal form. -/
theorem canonical_iff (x : LimbVec) : canonical c x = true ↔
    isLimbVec c x = true ∧
      natOf c x = uN c x + bitAt c x (c.N - 1) * (2 ^ (c.L * c.W) - 2 ^ c.N) := by
  rw [canonical, Bool.and_eq_true]
  refine and_congr_right fun h => ?_
  obtain ⟨hl, hx⟩ := (isLimbVec_iff c x).mp h
  have hN := N_add_P c
  have hlt : natOf c x < 2 ^ (c.N + c.P) := by rw [hN, ← hl]; exact natOf_lt c x hx
  have hb := bitAt_lt_two c x (c.N - 1)
  simp only [List.all_eq_true, beq_iff_eq, padBits, List.mem_range'_1]
  generalize bitAt c x (c.N - 1) = b at *
  rw [uN, ← hN]
  -- the pad bits are the bits of `nat(x) / 2^N`
  have hpad : ∀ k, bitAt c x (c.N + k) = natOf c x / 2 ^ c.N / 2 ^ k % 2 := fun k => by
    rw [bitAt_eq c x _ hx, pow_add, Nat.div_div_eq_div_mul]
  have hq : natOf c x / 2 ^ c.N < 2 ^ c.P := by
    rw [pow_add] at hlt; exact Nat.div_lt_of_lt_mul hlt
  have hdm := Nat.div_add_mod (natOf c x) (2 ^ c.N)
  have hall : (∀ k, c.N ≤ k ∧ k < c.N + c.P → bitAt c x k = b) ↔
      ∀ k < c.P, natOf c x / 2 ^ c.N / 2 ^ k % 2 = b := by
    constructor
    · intro H k hk; rw [← hpad]; exact H _ ⟨by omega, by omega⟩
    · rintro H k ⟨h1, h2⟩
      obtain ⟨j, rfl⟩ := Nat.exists_eq_add_of_le h1
      rw [hpad]; exact H j (by omega)
  rw [hall]
  generalize natOf c x / 2 ^ c.N = q at *
  have hbits : (∀ k < c.P, q / 2 ^ k % 2 = b) ↔ q = b * (2 ^ c.P - 1) := by
    clear hall hpad hdm hlt h hl hx hN
    generalize c.P = p at *
    induction p generalizing q with
    | zero => simp at hq ⊢; exact hq
    | succ p ih =>
      have h2 := Nat.div_add_mod q 2
      have hp : 2 ^ (p + 1) = 2 * 2 ^ p := by rw [pow_succ, Nat.mul_comm]
      have hpos := Nat.two_pow_pos p
      have := ih (q / 2) (by omega)
      have hshift : (∀ k < p + 1, q / 2 ^ k % 2 = b) ↔ q % 2 = b ∧ ∀ k < p, q / 2 / 2 ^ k % 2 = b := by
        constructor
        · intro H
          refine ⟨by simpa using H 0 (by omega), fun k hk => ?_⟩
          have := H (k + 1) (by omega)
          rwa [pow_succ', ← Nat.div_div_eq_div_mul] at this
        · rintro ⟨h0, H⟩ k hk
          cases k with
          | zero => simpa using h0
          | succ k => rw [pow_succ', ← Nat.div_div_eq_div_mul]; exact H k (by omega)
      rw [hshift, this, hp]
      rcases Nat.lt_succ_iff.mp hb |>.lt_or_eq with h0 | h1
      · have : b = 0 := by omega
        subst this; omega
      · subst h1; omega
  rw [hbits]
  have hle : 2 ^ c.N ≤ 2 ^ (c.N + c.P) := Nat.pow_le_pow_right (by decide) (by omega)
  have hpow : 2 ^ (c.N + c.P) - 2 ^ c.N = 2 ^ c.N * (2 ^ c.P - 1) := by
    rw [pow_add, Nat.mul_sub, Nat.mul_one]
  have e : b * (2 ^ (c.N + c.P) - 2 ^ c.N) = 2 ^ c.N * (b * (2 ^ c.P - 1)) := by
    rw [hpow, Nat.mul_left_comm]
  rw [e]
  have hposN := Nat.two_pow_pos c.N
  constructor
  · rintro rfl; omega
  · intro H
    have : 2 ^ c.N * q = 2 ^ c.N * (b * (2 ^ c.P - 1)) := by omega
    exact Nat.eq_of_mul_eq_mul_left hposN this

/-- `norm_N` gives a canonical Value (40_storage_sign.md R92). -/
theorem normN_canonical (x : LimbVec) (h : isLimbVec c x = true) : canonical c (normN c x) = true := by
  have hn := natOf_normN c x h
  have hv := normN_isLimbVec c x h
  obtain ⟨_, hok⟩ := (isLimbVec_iff c _).mp hv
  have hu : uN c x < 2 ^ c.N := Nat.mod_lt _ (Nat.two_pow_pos _)
  have hpow : 2 ^ (c.L * c.W) - 2 ^ c.N = 2 ^ c.N * (2 ^ c.P - 1) := by
    rw [← N_add_P, pow_add, Nat.mul_sub, Nat.mul_one]
  have e : bitAt c x (c.N - 1) * (2 ^ (c.L * c.W) - 2 ^ c.N) =
      2 ^ c.N * (bitAt c x (c.N - 1) * (2 ^ c.P - 1)) := by rw [hpow, Nat.mul_left_comm]
  have hlow : uN c (normN c x) = uN c x := by
    rw [uN, hn, e, Nat.add_mul_mod_self_left, Nat.mod_eq_of_lt hu]
  have hp : 2 ^ c.N = 2 ^ (c.N - 1) * 2 := by
    have := c.four_le_N
    rw [← pow_succ]; congr 1; omega
  have hx := (isLimbVec_iff c x).mp h
  have hbit : bitAt c (normN c x) (c.N - 1) = bitAt c x (c.N - 1) := by
    rw [bitAt_eq c _ _ hok, bitAt_eq c x _ hx.2]
    have hm : ∀ n : Nat, n / 2 ^ (c.N - 1) % 2 = n % 2 ^ c.N / 2 ^ (c.N - 1) := fun n => by
      rw [hp, Nat.mod_mul_right_div_self]
    rw [hm, hm (natOf c x)]
    exact congrArg (· / 2 ^ (c.N - 1)) hlow
  rw [canonical_iff]
  exact ⟨hv, by rw [hlow, hbit, hn]⟩

/-! ## `from_magnitude_and_sign` (40_storage_sign.md R96) -/

/-- Every result of `from_magnitude_and_sign` is canonical, whatever the magnitude. -/
theorem fromMagnitudeAndSign_canonical (m : LimbVec) (neg : Bool) :
    canonical c (fromMagnitudeAndSign c m neg) = true := by
  have h := limbsOf_isLimbVec c (natOf c m % 2 ^ c.N)
  rw [fromMagnitudeAndSign]
  apply normN_canonical
  cases neg
  · exact h
  · exact twosRaw_isLimbVec c _ h

end Sys2Proof.Machine
end

