-- ==== Sys2Proof/Laws/Engines.lean ====
section
/-! SUPPORT. The spec lemmas of the engines' loops: what number each loop computes, and that every result
that goes to a value register is canonical (10_state.md R21). -/

namespace Sys2Proof.Machine

variable (c : Config)

theorem canonical_isLimbVec {x : LimbVec} (h : canonical c x = true) : isLimbVec c x = true := by
  rw [canonical, Bool.and_eq_true] at h
  exact h.1

/-! ## The adder (42_additive.md R120) -/

theorem addLoop_length : ∀ (x y : LimbVec) (k : Nat), x.length = y.length →
    (addLoop c k x y).length = x.length
  | [], y, k, _ => by simp [addLoop]
  | _ :: x, [], k, h => by simp at h
  | _ :: x, _ :: y, k, h => by simp [addLoop, addLoop_length x y _ (by simpa using h)]

theorem addLoop_ok : ∀ (x y : LimbVec) (k : Nat), LimbsOk c (addLoop c k x y)
  | [], y, k => by simp [addLoop, LimbsOk]
  | _ :: x, [], k => by simp [addLoop, LimbsOk]
  | _ :: x, _ :: y, k => by
    intro l hl
    rcases List.mem_cons.mp hl with rfl | hl
    · exact Nat.mod_lt _ (base_pos c)
    · exact addLoop_ok x y _ l hl

/-- R120: the loop adds the two numbers and the carry in, and drops the carry out. -/
theorem natOf_addLoop : ∀ (x y : LimbVec) (k : Nat), x.length = y.length →
    natOf c (addLoop c k x y) = (natOf c x + natOf c y + k) % 2 ^ (x.length * c.W)
  | [], [], k, _ => by simp [addLoop, natOf, Nat.mod_one]
  | [], _ :: _, k, h => by simp at h
  | _ :: x, [], k, h => by simp at h
  | l :: x, m :: y, k, h => by
    have ih := natOf_addLoop x y ((l + m + k) / 2 ^ c.W) (by simpa using h)
    simp only [addLoop, natOf, List.length_cons, ih, pow_succ_limb]
    have e : l + 2 ^ c.W * natOf c x + (m + 2 ^ c.W * natOf c y) + k =
        l + m + k + 2 ^ c.W * (natOf c x + natOf c y) := by ring
    rw [e, Nat.mod_mul, Nat.add_mul_mod_self_left, Nat.add_mul_div_left _ _ (base_pos c),
      Nat.add_comm ((l + m + k) / _)]

theorem addLoop_isLimbVec {x y : LimbVec} (hx : isLimbVec c x = true) (hy : isLimbVec c y = true)
    (k : Nat) : isLimbVec c (addLoop c k x y) = true := by
  obtain ⟨lx, _⟩ := (isLimbVec_iff c x).mp hx
  obtain ⟨ly, _⟩ := (isLimbVec_iff c y).mp hy
  exact (isLimbVec_iff c _).mpr ⟨by rw [addLoop_length c x y k (lx.trans ly.symm), lx], addLoop_ok c x y k⟩

theorem add_canonical {a b : LimbVec} (ha : isLimbVec c a = true) (hb : isLimbVec c b = true) :
    canonical c (add c a b) = true := normN_canonical c _ (addLoop_isLimbVec c ha hb 0)

theorem negate_canonical {x : LimbVec} (h : isLimbVec c x = true) : canonical c (negate c x) = true :=
  normN_canonical c _ (twosRaw_isLimbVec c x h)

theorem sub_canonical {a b : LimbVec} (ha : isLimbVec c a = true) (hb : isLimbVec c b = true) :
    canonical c (sub c a b) = true :=
  add_canonical c ha (canonical_isLimbVec c (negate_canonical c hb))

/-! ## The multiplier (43_multiplicative.md R140) -/

theorem mulRow_length : ∀ (y acc : LimbVec) (x k : Nat), (mulRow c x y acc k).length = acc.length
  | [], [], _, _ => rfl
  | [], _ :: _, _, _ => rfl
  | _ :: _, [], _, _ => rfl
  | _ :: y, _ :: acc, x, k => by simp [mulRow, mulRow_length y acc]

/-- A row leaves every limb above its own last one alone. -/
theorem mulRow_drop : ∀ (y acc : LimbVec) (x k : Nat),
    (mulRow c x y acc k).drop (y.length + 1) = acc.drop (y.length + 1)
  | [], [], _, _ => rfl
  | [], _ :: _, _, _ => rfl
  | _ :: _, [], _, _ => by simp [mulRow]
  | _ :: y, _ :: acc, x, k => by simp [mulRow, mulRow_drop y acc]

/-- The bound of R140 on an intermediate: `0 <= t <= 2^(2*W) - 1`, so the carry fits a limb. -/
theorem mulRow_carry_lt {B t x y k : Nat} (ht : t < B) (hx : x < B) (hy : y < B) (hk : k < B) :
    (t + x * y + k) / B < B := by
  apply Nat.div_lt_of_lt_mul
  have : x * y ≤ (B - 1) * (B - 1) := Nat.mul_le_mul (by omega) (by omega)
  obtain ⟨b, rfl⟩ : ∃ b, B = b + 1 := ⟨B - 1, by omega⟩
  simp only [Nat.add_sub_cancel] at this
  have e : (b + 1) * (b + 1) = b * b + 2 * b + 1 := by ring
  omega

theorem mulRow_ok : ∀ (y acc : LimbVec) (x k : Nat), LimbsOk c y → LimbsOk c acc → x < 2 ^ c.W →
    k < 2 ^ c.W → LimbsOk c (mulRow c x y acc k)
  | [], [], _, _, _, _, _, _ => by simp [mulRow, LimbsOk]
  | [], _ :: acc, _, k, _, ha, _, hk => by
    intro l hl
    rcases List.mem_cons.mp hl with rfl | hl
    · exact hk
    · exact ha l (List.mem_cons_of_mem _ hl)
  | _ :: _, [], _, _, _, _, _, _ => by simp [mulRow, LimbsOk]
  | m :: y, t :: acc, x, k, hy, ha, hx, hk => by
    intro l hl
    rcases List.mem_cons.mp hl with rfl | hl
    · exact Nat.mod_lt _ (base_pos c)
    · exact mulRow_ok y acc x _ (fun a h => hy a (List.mem_cons_of_mem _ h))
        (fun a h => ha a (List.mem_cons_of_mem _ h)) hx
        (mulRow_carry_lt (ha t List.mem_cons_self) hx (hy m List.mem_cons_self) hk) l hl

/-- A row adds the limb's multiple of the second magnitude, exactly, when the limb it ends on is zero. -/
theorem natOf_mulRow : ∀ (y acc : LimbVec) (x k : Nat), y.length < acc.length →
    limbAt acc y.length = 0 → natOf c (mulRow c x y acc k) = natOf c acc + x * natOf c y + k
  | [], [], _, _, h, _ => by simp at h
  | [], t :: acc, x, k, _, h0 => by
    simp only [limbAt, List.length_nil, List.getD_cons_zero] at h0
    simp [mulRow, natOf, h0]; omega
  | _ :: _, [], _, _, h, _ => by simp at h
  | m :: y, t :: acc, x, k, h, h0 => by
    have ih := natOf_mulRow y acc x ((t + x * m + k) / 2 ^ c.W) (by simpa using h)
      (by simpa [limbAt] using h0)
    simp only [mulRow, natOf, ih]
    have hdm := Nat.div_add_mod (t + x * m + k) (2 ^ c.W)
    generalize 2 ^ c.W = B at *
    generalize (t + x * m + k) / B = q at *
    generalize (t + x * m + k) % B = r at *
    have e1 : B * (natOf c acc + x * natOf c y + q) =
        B * natOf c acc + x * (B * natOf c y) + B * q := by ring
    have e2 : x * (m + B * natOf c y) = x * m + x * (B * natOf c y) := by ring
    rw [e1, e2]
    omega

theorem mulRows_spec : ∀ (xs y acc : LimbVec), LimbsOk c xs → LimbsOk c y → LimbsOk c acc →
    xs.length + y.length ≤ acc.length → (∀ l ∈ acc.drop y.length, l = 0) →
    (mulRows c xs y acc).length = acc.length ∧ LimbsOk c (mulRows c xs y acc) ∧
      natOf c (mulRows c xs y acc) = natOf c acc + natOf c xs * natOf c y
  | [], y, acc, _, _, ha, _, _ => by simp [mulRows, natOf]; exact ha
  | x :: xs, y, acc, hx, hy, ha, hlen, hz => by
    have hlen' : y.length < acc.length := by simp at hlen; omega
    have h0 : limbAt acc y.length = 0 := by
      have : acc.getD y.length 0 ∈ acc.drop y.length := by
        rw [List.drop_eq_getElem_cons hlen', List.getD_eq_getElem _ _ hlen']
        exact List.mem_cons_self
      exact hz _ this
    have hxb : x < 2 ^ c.W := hx x List.mem_cons_self
    have r1 := mulRow_length c y acc x 0
    have r2 := mulRow_drop c y acc x 0
    have r3 := mulRow_ok c y acc x 0 hy ha hxb (base_pos c)
    have r4 := natOf_mulRow c y acc x 0 hlen' h0
    simp only [mulRows]
    cases hrow : mulRow c x y acc 0 with
    | nil => rw [hrow] at r1; simp at r1; omega
    | cons t rest =>
      rw [hrow] at r1 r2 r3 r4
      have hz' : ∀ l ∈ rest.drop y.length, l = 0 := by
        intro l hl
        have hl' : l ∈ acc.drop (y.length + 1) := by rw [← r2]; simpa using hl
        apply hz l
        rw [← List.drop_drop] at hl'
        exact List.mem_of_mem_drop hl'
      obtain ⟨i1, i2, i3⟩ := mulRows_spec xs y rest (fun a h => hx a (List.mem_cons_of_mem _ h)) hy
        (fun a h => r3 a (List.mem_cons_of_mem _ h))
        (by simp only [List.length_cons] at hlen r1; omega) hz'
      refine ⟨by simp [i1, ← r1], ?_, ?_⟩
      · intro l hl
        rcases List.mem_cons.mp hl with rfl | hl
        · exact r3 _ List.mem_cons_self
        · exact i2 l hl
      · simp only [natOf] at r4 ⊢
        rw [i3]
        have e : 2 ^ c.W * (natOf c rest + natOf c xs * natOf c y) =
            2 ^ c.W * natOf c rest + 2 ^ c.W * natOf c xs * natOf c y := by ring
        rw [e, ← Nat.add_assoc, r4]
        ring

/-- R140: the accumulator of `2*L` limbs holds the exact product of the two magnitudes. -/
theorem natOf_mulAcc {ma mb : LimbVec} (ha : isLimbVec c ma = true) (hb : isLimbVec c mb = true) :
    (mulAcc c ma mb).length = 2 * c.L ∧ LimbsOk c (mulAcc c ma mb) ∧
      natOf c (mulAcc c ma mb) = natOf c ma * natOf c mb := by
  obtain ⟨la, oa⟩ := (isLimbVec_iff c ma).mp ha
  obtain ⟨lb, ob⟩ := (isLimbVec_iff c mb).mp hb
  have hz : ∀ n, natOf c (List.replicate n 0) = 0 := fun n => by
    induction n with
    | zero => rfl
    | succ n ih => simp [List.replicate_succ, natOf, ih]
  have := mulRows_spec c ma mb (List.replicate (2 * c.L) 0) oa ob
    (fun l hl => by rw [List.eq_of_mem_replicate hl]; exact base_pos c)
    (by simp [la, lb]; omega)
    (fun l hl => List.eq_of_mem_replicate (List.mem_of_mem_drop hl))
  rw [hz, Nat.zero_add] at this
  simpa [mulAcc] using this

theorem mul_canonical (a b : LimbVec) : canonical c (mul c a b) = true :=
  fromMagnitudeAndSign_canonical c _ _

/-! ## The divider (44_divisive.md R151) -/

/-- The loop invariant of R151: after bit `k`, `rem = (nat(n) div 2^k) mod nat(d)` and the quotient bits
found so far are those of `(nat(n) div 2^k) div nat(d)`. -/
theorem udivLoop_spec (n d : LimbVec) (hn : LimbsOk c n) (hd : 0 < natOf c d) :
    ∀ (k : Nat) (q : LimbVec) (r : Nat), k ≤ c.N → isLimbVec c q = true →
      natOf c q = natOf c n / 2 ^ k / natOf c d * 2 ^ k → r = natOf c n / 2 ^ k % natOf c d →
      isLimbVec c (udivLoop c n d k (q, r)).1 = true ∧
        natOf c (udivLoop c n d k (q, r)).1 = natOf c n / natOf c d ∧
        (udivLoop c n d k (q, r)).2 = natOf c n % natOf c d
  | 0, q, r, _, hq, h1, h2 => by simp [udivLoop] at *; exact ⟨hq, h1, h2⟩
  | k + 1, q, r, hk, hq, h1, h2 => by
    obtain ⟨lq, oq⟩ := (isLimbVec_iff c q).mp hq
    have hbits := N_le_bits c
    have hkq : k < q.length * c.W := by rw [lq]; omega
    have hY : natOf c n / 2 ^ k = 2 * (natOf c n / 2 ^ (k + 1)) + bitAt c n k := by
      rw [bitAt_eq c n k hn, pow_succ, ← Nat.div_div_eq_div_mul]
      exact (Nat.div_add_mod _ 2).symm
    have hb := bitAt_lt_two c n k
    have hpow : 2 ^ (k + 1) = 2 * 2 ^ k := by rw [pow_succ, Nat.mul_comm]
    generalize natOf c n / 2 ^ (k + 1) = Y at *
    have hdm := Nat.div_add_mod Y (natOf c d)
    rw [← h2] at hdm
    have hr : r < natOf c d := h2 ▸ Nat.mod_lt _ hd
    rw [hpow] at h1
    generalize Y / natOf c d = a at *
    simp only [udivLoop, udivStep]
    split
    · rename_i hge
      have hrem : 2 * Y + bitAt c n k =
          (2 * r + bitAt c n k - natOf c d) + natOf c d * (2 * a + 1) := by
        have : natOf c d * (2 * a + 1) = 2 * (natOf c d * a) + natOf c d := by ring
        omega
      apply udivLoop_spec n d hn hd k _ _ (by omega)
      · exact (isLimbVec_iff c _).mpr ⟨by simpa using lq, setBit_ok c q k 1 oq (by decide)⟩
      · have hset := natOf_setBit c q k 1 oq hkq
        have h0 : bitAt c q k = 0 := by
          rw [bitAt_eq c q k oq, h1, ← Nat.mul_assoc, Nat.mul_div_cancel _ (Nat.two_pow_pos k),
            Nat.mul_mod_left]
        rw [h0, h1] at hset
        rw [hY, hrem, Nat.add_mul_div_left _ _ hd, Nat.div_eq_of_lt (by omega), Nat.zero_add]
        have e : (2 * a + 1) * 2 ^ k = a * (2 * 2 ^ k) + 1 * 2 ^ k := by ring
        omega
      · rw [hY, hrem, Nat.add_mul_mod_self_left, Nat.mod_eq_of_lt (by omega)]
    · rename_i hlt
      have hrem : 2 * Y + bitAt c n k = (2 * r + bitAt c n k) + natOf c d * (2 * a) := by
        have : natOf c d * (2 * a) = 2 * (natOf c d * a) := by ring
        omega
      apply udivLoop_spec n d hn hd k _ _ (by omega) hq
      · rw [hY, hrem, Nat.add_mul_div_left _ _ hd, Nat.div_eq_of_lt (by omega), Nat.zero_add, h1]
        ring
      · rw [hY, hrem, Nat.add_mul_mod_self_left, Nat.mod_eq_of_lt (by omega)]

/-- R151, for a dividend below `2^N` (a magnitude): quotient and remainder of the two numbers. -/
theorem udivmod_spec {n d : LimbVec} (hn : isLimbVec c n = true) (hlt : natOf c n < 2 ^ c.N)
    (hd : 0 < natOf c d) :
    isLimbVec c (udivmod c n d).1 = true ∧ isLimbVec c (udivmod c n d).2 = true ∧
      natOf c (udivmod c n d).1 = natOf c n / natOf c d ∧
      natOf c (udivmod c n d).2 = natOf c n % natOf c d := by
  have h0 : natOf c n / 2 ^ c.N = 0 := Nat.div_eq_of_lt hlt
  have hz : natOf c (limbsOf c c.L 0) = 0 := by rw [natOf_limbsOf, Nat.zero_mod]
  obtain ⟨h1, h2, h3⟩ := udivLoop_spec c n d ((isLimbVec_iff c n).mp hn).2 hd c.N (limbsOf c c.L 0) 0
    (le_refl _) (limbsOf_isLimbVec c 0) (by rw [hz, h0]; simp) (by rw [h0]; simp)
  refine ⟨h1, limbsOf_isLimbVec c _, h2, ?_⟩
  simp only [udivmod]
  rw [natOf_limbsOf, h3, Nat.mod_eq_of_lt]
  calc natOf c n % natOf c d ≤ natOf c n := Nat.mod_le _ _
    _ < 2 ^ c.N := hlt
    _ ≤ 2 ^ (c.L * c.W) := Nat.pow_le_pow_right (by decide) (N_le_bits c)

theorem divmod_canonical {a b q r : LimbVec} (h : divmod c a b = .ok (q, r)) :
    canonical c q = true ∧ canonical c r = true := by
  simp only [divmod] at h
  split at h
  · cases h
  · cases h
    exact ⟨fromMagnitudeAndSign_canonical c _ _, fromMagnitudeAndSign_canonical c _ _⟩

/-! ## Construction (45_construction_conversion.md R170, R173) -/

@[simp] theorem patternLimbs_length (e : Int) : ∀ (K j : Nat), (patternLimbs c e j K).length = K
  | 0, _ => rfl
  | K + 1, j => by simp [patternLimbs, patternLimbs_length e K]

theorem patternLimbs_ok (e : Int) : ∀ (K j : Nat), LimbsOk c (patternLimbs c e j K)
  | 0, _ => by simp [patternLimbs, LimbsOk]
  | K + 1, j => by
    intro l hl
    rcases List.mem_cons.mp hl with rfl | hl
    · have hp : (0 : Int) < 2 ^ c.W := by positivity
      have h1 := Int.emod_nonneg (e / 2 ^ (j * c.W)) hp.ne'
      have h2 := Int.emod_lt_of_pos (e / 2 ^ (j * c.W)) hp
      have h3 : ((2 ^ c.W : Nat) : Int) = 2 ^ c.W := by push_cast; rfl
      omega
    · exact patternLimbs_ok e K _ l hl

theorem fromSmallInteger_canonical (i : Int) : canonical c (fromSmallInteger c i) = true :=
  normN_canonical c _ ((isLimbVec_iff c _).mpr ⟨patternLimbs_length c _ _ _, patternLimbs_ok c _ _ _⟩)

theorem parseDigits_canonical : ∀ (bs : List Byte) (x y : LimbVec), canonical c x = true →
    parseDigits c x bs = some y → canonical c y = true
  | [], x, y, hx, h => by simp [parseDigits] at h; exact h ▸ hx
  | b :: bs, x, y, hx, h => by
    rw [parseDigits] at h
    split at h
    · exact parseDigits_canonical bs _ y
        (add_canonical c (canonical_isLimbVec c (mul_canonical c _ _))
          (canonical_isLimbVec c (fromSmallInteger_canonical c _))) h
    · cases h

end Sys2Proof.Machine
end

