-- ==== Sys2Proof/Laws/State.lean ====
section
/-! SUPPORT. One lemma per field of State per update, so that no proof unfolds a record update. -/

namespace Sys2Proof.Machine

variable (s : State)

/-! ## `State.writeV` -/

@[simp] theorem State.writeV_cfg (r : Reg) (x : LimbVec) :
    (s.writeV r x).cfg = s.cfg := rfl
@[simp] theorem State.writeV_v (r : Reg) (x : LimbVec) :
    (s.writeV r x).v = s.v.set r x := rfl
@[simp] theorem State.writeV_imm (r : Reg) (x : LimbVec) :
    (s.writeV r x).imm = s.imm := rfl
@[simp] theorem State.writeV_tlen (r : Reg) (x : LimbVec) :
    (s.writeV r x).tlen = s.tlen := rfl
@[simp] theorem State.writeV_txt (r : Reg) (x : LimbVec) :
    (s.writeV r x).txt = s.txt := rfl
@[simp] theorem State.writeV_status (r : Reg) (x : LimbVec) :
    (s.writeV r x).status = s.status := rfl
@[simp] theorem State.writeV_pending (r : Reg) (x : LimbVec) :
    (s.writeV r x).pending = s.pending := rfl
@[simp] theorem State.writeV_returned (r : Reg) (x : LimbVec) :
    (s.writeV r x).returned = s.returned := rfl

/-! ## `State.setTlen` -/

@[simp] theorem State.setTlen_cfg (n : BitVec 16) :
    (s.setTlen n).cfg = s.cfg := rfl
@[simp] theorem State.setTlen_v (n : BitVec 16) :
    (s.setTlen n).v = s.v := rfl
@[simp] theorem State.setTlen_imm (n : BitVec 16) :
    (s.setTlen n).imm = s.imm := rfl
@[simp] theorem State.setTlen_tlen (n : BitVec 16) :
    (s.setTlen n).tlen = n := rfl
@[simp] theorem State.setTlen_txt (n : BitVec 16) :
    (s.setTlen n).txt = s.txt := rfl
@[simp] theorem State.setTlen_status (n : BitVec 16) :
    (s.setTlen n).status = s.status := rfl
@[simp] theorem State.setTlen_pending (n : BitVec 16) :
    (s.setTlen n).pending = s.pending := rfl
@[simp] theorem State.setTlen_returned (n : BitVec 16) :
    (s.setTlen n).returned = s.returned := rfl

/-! ## `State.setCmp` -/

@[simp] theorem State.setCmp_cfg (o : Comparison) :
    (s.setCmp o).cfg = s.cfg := rfl
@[simp] theorem State.setCmp_v (o : Comparison) :
    (s.setCmp o).v = s.v := rfl
@[simp] theorem State.setCmp_imm (o : Comparison) :
    (s.setCmp o).imm = s.imm := rfl
@[simp] theorem State.setCmp_tlen (o : Comparison) :
    (s.setCmp o).tlen = s.tlen := rfl
@[simp] theorem State.setCmp_txt (o : Comparison) :
    (s.setCmp o).txt = s.txt := rfl
@[simp] theorem State.setCmp_status (o : Comparison) :
    (s.setCmp o).status = { s.status with cmp := o.code } := rfl
@[simp] theorem State.setCmp_pending (o : Comparison) :
    (s.setCmp o).pending = s.pending := rfl
@[simp] theorem State.setCmp_returned (o : Comparison) :
    (s.setCmp o).returned = s.returned := rfl

/-! ## `State.setPerr` -/

@[simp] theorem State.setPerr_cfg (b : Bool) :
    (s.setPerr b).cfg = s.cfg := rfl
@[simp] theorem State.setPerr_v (b : Bool) :
    (s.setPerr b).v = s.v := rfl
@[simp] theorem State.setPerr_imm (b : Bool) :
    (s.setPerr b).imm = s.imm := rfl
@[simp] theorem State.setPerr_tlen (b : Bool) :
    (s.setPerr b).tlen = s.tlen := rfl
@[simp] theorem State.setPerr_txt (b : Bool) :
    (s.setPerr b).txt = s.txt := rfl
@[simp] theorem State.setPerr_status (b : Bool) :
    (s.setPerr b).status = { s.status with perr := b } := rfl
@[simp] theorem State.setPerr_pending (b : Bool) :
    (s.setPerr b).pending = s.pending := rfl
@[simp] theorem State.setPerr_returned (b : Bool) :
    (s.setPerr b).returned = s.returned := rfl

/-! ## `State.raiseFault` -/

@[simp] theorem State.raiseFault_cfg (e : Cause) :
    (s.raiseFault e).cfg = s.cfg := rfl
@[simp] theorem State.raiseFault_v (e : Cause) :
    (s.raiseFault e).v = s.v := rfl
@[simp] theorem State.raiseFault_imm (e : Cause) :
    (s.raiseFault e).imm = s.imm := rfl
@[simp] theorem State.raiseFault_tlen (e : Cause) :
    (s.raiseFault e).tlen = s.tlen := rfl
@[simp] theorem State.raiseFault_txt (e : Cause) :
    (s.raiseFault e).txt = s.txt := rfl
@[simp] theorem State.raiseFault_status (e : Cause) :
    (s.raiseFault e).status = { s.status with fault := true, fcause := e.code } := rfl
@[simp] theorem State.raiseFault_pending (e : Cause) :
    (s.raiseFault e).pending = s.pending := rfl
@[simp] theorem State.raiseFault_returned (e : Cause) :
    (s.raiseFault e).returned = s.returned := rfl

/-! ## `State.applyReset` -/

@[simp] theorem State.applyReset_cfg :
    (s.applyReset).cfg = s.cfg := rfl
@[simp] theorem State.applyReset_v :
    (s.applyReset).v = Vector.replicate 16 (List.replicate s.cfg.L 0) := rfl
@[simp] theorem State.applyReset_imm :
    (s.applyReset).imm = 0 := rfl
@[simp] theorem State.applyReset_tlen :
    (s.applyReset).tlen = 0 := rfl
@[simp] theorem State.applyReset_txt :
    (s.applyReset).txt = [] := rfl
@[simp] theorem State.applyReset_status :
    (s.applyReset).status = Status.reset := rfl
@[simp] theorem State.applyReset_pending :
    (s.applyReset).pending = s.pending := rfl
@[simp] theorem State.applyReset_returned :
    (s.applyReset).returned = s.returned := rfl

/-! ## Reading a value register after an update -/

@[simp] theorem State.readV_writeV_same (r : Reg) (x : LimbVec) : (s.writeV r x).readV r = x := by
  simp [State.readV]

theorem State.readV_writeV_ne (r r' : Reg) (x : LimbVec) (h : r' ≠ r) :
    (s.writeV r x).readV r' = s.readV r' := by
  have : r.val ≠ r'.val := fun e => h (Fin.ext e.symm)
  simp [State.readV, this]

@[simp] theorem State.readV_setTlen (n : BitVec 16) (r : Reg) : (s.setTlen n).readV r = s.readV r := rfl
@[simp] theorem State.readV_setCmp (o : Comparison) (r : Reg) : (s.setCmp o).readV r = s.readV r := rfl
@[simp] theorem State.readV_setPerr (b : Bool) (r : Reg) : (s.setPerr b).readV r = s.readV r := rfl
@[simp] theorem State.readV_raiseFault (e : Cause) (r : Reg) :
    (s.raiseFault e).readV r = s.readV r := rfl

@[simp] theorem State.readV_resetOf (c : Config) (r : Reg) :
    (State.resetOf c).readV r = List.replicate c.L 0 := by
  simp [State.readV, State.resetOf]

end Sys2Proof.Machine
end

