-- ==== Sys2Proof/Laws/Memory.lean ====
section
/-! SUPPORT. The text buffer: a read after a write, the canonical form that every write keeps, and the spec
lemmas of reading and writing a run of bytes (20_memory.md R50). -/

namespace Sys2Proof.Machine

/-! ## One byte -/

theorem Memory.read_consCell (i : Nat) (b : Byte) (m : Memory) (j : Nat)
    (h : b = unlistedByte → m.read i = unlistedByte) :
    (consCell i b m).read j = if j = i then b else m.read j := by
  unfold consCell
  split
  · rename_i hb
    split
    · rename_i hj; rw [hj, h hb, hb]
    · rfl
  · rfl

/-- A write leaves every other byte alone, in every list of cells. -/
theorem Memory.read_write_ne : ∀ (m : Memory) (i j : Nat) (b : Byte), j ≠ i →
    (m.write i b).read j = m.read j
  | [], i, j, b, h => by
    unfold Memory.write consCell
    split
    · rfl
    · simp [Memory.read, h]
  | (a, b') :: m, i, j, b, h => by
    unfold Memory.write
    split
    · unfold consCell
      split
      · rfl
      · conv_lhs => rw [Memory.read, if_neg h]
    · split
      · rename_i _ hia
        have hja : j ≠ a := hia ▸ h
        unfold consCell
        split
        · rw [Memory.read, if_neg hja]
        · rw [Memory.read, if_neg h, Memory.read, if_neg hja]
      · simp only [Memory.read, Memory.read_write_ne m i j b h]

/-- A byte other than `0x00` reads back, in every list of cells. -/
theorem Memory.read_write_same_listed : ∀ (m : Memory) (i : Nat) (b : Byte), b ≠ unlistedByte →
    (m.write i b).read i = b
  | [], i, b, h => by simp [Memory.write, consCell, h, Memory.read]
  | (a, b') :: m, i, b, h => by
    unfold Memory.write
    split
    · simp [consCell, h, Memory.read]
    · split
      · simp [consCell, h, Memory.read]
      · rename_i _ hia
        simp only [Memory.read, if_neg hia, Memory.read_write_same_listed m i b h]

theorem Memory.read_of_wfAbove : ∀ (m : Memory) (lo i : Nat), m.wfAbove lo = true → i ≤ lo →
    m.read i = unlistedByte
  | [], _, _, _, _ => rfl
  | (a, b) :: m, lo, i, h, hi => by
    simp only [Memory.wfAbove, Bool.and_eq_true, decide_eq_true_eq] at h
    rw [Memory.read, if_neg (by omega)]
    exact Memory.read_of_wfAbove m a i h.2 (by omega)

theorem Memory.wfAbove_mono : ∀ (m : Memory) (lo lo' : Nat), m.wfAbove lo = true → lo' ≤ lo →
    m.wfAbove lo' = true
  | [], _, _, _, _ => rfl
  | (a, b) :: m, lo, lo', h, hl => by
    simp only [Memory.wfAbove, Bool.and_eq_true, decide_eq_true_eq] at h ⊢
    exact ⟨⟨by omega, h.1.2⟩, h.2⟩

theorem Memory.consCell_wfAbove (m : Memory) (lo i : Nat) (b : Byte) (hlo : lo < i)
    (h : m.wfAbove i = true) : (consCell i b m).wfAbove lo = true := by
  unfold consCell
  split
  · exact Memory.wfAbove_mono m i lo h (by omega)
  · rename_i hb
    simp [Memory.wfAbove, hlo, hb, h]

theorem Memory.write_wfAbove : ∀ (m : Memory) (lo i : Nat) (b : Byte), m.wfAbove lo = true → lo < i →
    (m.write i b).wfAbove lo = true
  | [], lo, i, b, _, hlo => Memory.consCell_wfAbove [] lo i b hlo rfl
  | (a, b') :: m, lo, i, b, h, hlo => by
    have h' := h
    simp only [Memory.wfAbove, Bool.and_eq_true, decide_eq_true_eq] at h
    unfold Memory.write
    split
    · rename_i hia
      exact Memory.consCell_wfAbove _ lo i b hlo (by simp [Memory.wfAbove, hia, h.1.2, h.2])
    · split
      · rename_i _ hia
        exact Memory.consCell_wfAbove m lo i b hlo (hia ▸ h.2)
      · rename_i h1 h2
        simp only [Memory.wfAbove, Bool.and_eq_true, decide_eq_true_eq]
        exact ⟨h.1, Memory.write_wfAbove m a i b h.2 (by omega)⟩

theorem Memory.wf_cons (a : Nat) (b : Byte) (m : Memory) :
    Memory.wf ((a, b) :: m) = true ↔ b ≠ unlistedByte ∧ m.wfAbove a = true := by
  simp [Memory.wf]

theorem Memory.wf_of_wfAbove (m : Memory) (lo : Nat) (h : m.wfAbove lo = true) : m.wf = true := by
  cases m with
  | nil => rfl
  | cons cell m =>
    simp only [Memory.wfAbove, Bool.and_eq_true] at h
    simp [Memory.wf, h.1.2, h.2]

/-- Every write keeps the canonical form. -/
theorem Memory.write_wf (m : Memory) (i : Nat) (b : Byte) (h : m.wf = true) :
    (m.write i b).wf = true := by
  have hcons : ∀ (i : Nat) (b : Byte) (m : Memory), m.wfAbove i = true → (consCell i b m).wf = true := by
    intro i b m hm
    unfold consCell
    split
    · exact Memory.wf_of_wfAbove m i hm
    · rename_i hb; exact (Memory.wf_cons i b m).mpr ⟨hb, hm⟩
  cases m with
  | nil => exact hcons i b [] rfl
  | cons cell m =>
    obtain ⟨a, b'⟩ := cell
    obtain ⟨hb', hm⟩ := (Memory.wf_cons a b' m).mp h
    unfold Memory.write
    split
    · rename_i hia
      exact hcons i b _ (by simp [Memory.wfAbove, hia, hb', hm])
    · split
      · rename_i _ hia
        exact hcons i b m (hia ▸ hm)
      · exact (Memory.wf_cons a b' _).mpr ⟨hb', Memory.write_wfAbove m a i b hm (by omega)⟩

/-- A byte reads back, in the canonical form. -/
theorem Memory.read_write_same (m : Memory) (i : Nat) (b : Byte) (h : m.wf = true) :
    (m.write i b).read i = b := by
  by_cases hb : b = unlistedByte
  · subst hb
    have key : ∀ (m : Memory), m.wf = true → (m.write i unlistedByte).read i = unlistedByte := by
      intro m
      induction m with
      | nil => intro _; rfl
      | cons cell m ih =>
        obtain ⟨a, b'⟩ := cell
        intro h
        obtain ⟨hb', hm⟩ := (Memory.wf_cons a b' m).mp h
        unfold Memory.write
        split
        · simp only [consCell, if_true, Memory.read]
          rw [if_neg (by omega)]
          exact Memory.read_of_wfAbove m a i hm (by omega)
        · split
          · simp only [consCell, if_true]
            exact Memory.read_of_wfAbove m a i hm (by omega)
          · rename_i _ hia
            simp only [Memory.read, if_neg hia]
            exact ih (Memory.wf_of_wfAbove m a hm)
    exact key m h
  · exact Memory.read_write_same_listed m i b hb

theorem Memory.write_below : ∀ (m : Memory) (i n : Nat) (b : Byte), m.below n = true → i < n →
    (m.write i b).below n = true
  | [], i, n, b, _, hi => by
    unfold Memory.write consCell
    split <;> simp [Memory.below, hi]
  | (a, b') :: m, i, n, b, h, hi => by
    simp only [Memory.below, List.all_cons, Bool.and_eq_true, decide_eq_true_eq] at h
    have ih := Memory.write_below m i n b (by simp [Memory.below, h.2]) hi
    unfold Memory.write consCell
    simp only [Memory.below] at ih ⊢
    split
    · split <;> simp [h.1, hi] <;> simpa using h.2
    · split
      · split
        · simpa using h.2
        · simp [hi]; simpa using h.2
      · simp [h.1]; simpa using ih

/-- Equal reads mean equal memories, in the canonical form. -/
theorem Memory.eq_of_read : ∀ (m m' : Memory), m.wf = true → m'.wf = true →
    (∀ i, m.read i = m'.read i) → m = m'
  | [], [], _, _, _ => rfl
  | [], (a, b) :: m, _, h', hr => by
    have := hr a
    simp only [Memory.read, if_true] at this
    exact absurd this.symm ((Memory.wf_cons a b m).mp h').1
  | (a, b) :: m, [], h, _, hr => by
    have := hr a
    simp only [Memory.read, if_true] at this
    exact absurd this ((Memory.wf_cons a b m).mp h).1
  | (a, b) :: m, (a', b') :: m', h, h', hr => by
    obtain ⟨hb, hm⟩ := (Memory.wf_cons a b m).mp h
    obtain ⟨hb', hm'⟩ := (Memory.wf_cons a' b' m').mp h'
    have haa : a = a' := by
      rcases Nat.lt_trichotomy a a' with hlt | heq | hgt
      · have := hr a
        rw [Memory.read, if_pos rfl, Memory.read, if_neg (by omega),
          Memory.read_of_wfAbove m' a' a hm' (by omega)] at this
        exact absurd this hb
      · exact heq
      · have := hr a'
        rw [Memory.read, if_neg (by omega), Memory.read_of_wfAbove m a a' hm (by omega), Memory.read,
          if_pos rfl] at this
        exact absurd this.symm hb'
    subst haa
    have hbb : b = b' := by have := hr a; simpa [Memory.read] using this
    subst hbb
    have : m = m' := by
      apply Memory.eq_of_read m m' (Memory.wf_of_wfAbove m a hm) (Memory.wf_of_wfAbove m' a hm')
      intro i
      rcases Nat.lt_or_ge a i with hi | hi
      · have := hr i
        simpa [Memory.read, show i ≠ a by omega] using this
      · rw [Memory.read_of_wfAbove m a i hm hi, Memory.read_of_wfAbove m' a i hm' hi]
    rw [this]

/-- The text buffer after reset has the canonical form. -/
theorem reset_txt_wf : State.reset.txt.wf = true := rfl

/-! ## A run of bytes -/

/-- Reading `n` bytes from index `i` on, all of them below `TCAP`. -/
theorem State.readText_spec (s : State) : ∀ (n i : Nat), i + n ≤ s.cfg.TCAP →
    s.readText i n = .ok ((List.range' i n).map s.txt.read)
  | 0, _, _ => rfl
  | n + 1, i, h => by
    rw [State.readText, State.memRead, if_pos (by omega)]
    simp only [State.readText_spec s n (i + 1) (by omega), List.range'_succ, List.map_cons]

/-- Everything a run of writes can do when it does not fault: the buffer keeps its canonical form and its
bound, the bytes stand where they were sent, every other byte and every other field is unchanged. -/
theorem State.writeText_spec : ∀ (bs : List Byte) (s t : State) (i : Nat), s.writeText i bs = .ok t →
    t = { s with txt := t.txt } ∧ (s.txt.wf = true → t.txt.wf = true) ∧
      (s.txt.below s.cfg.TCAP = true → t.txt.below s.cfg.TCAP = true) ∧
      (∀ j, j < i ∨ i + bs.length ≤ j → t.txt.read j = s.txt.read j) ∧
      ((∀ b ∈ bs, b ≠ unlistedByte) ∨ s.txt.wf = true →
        ∀ k (h : k < bs.length), t.txt.read (i + k) = bs[k])
  | [], s, t, i, h => by
    simp only [State.writeText, Except.ok.injEq] at h
    subst h
    exact ⟨rfl, id, id, fun _ _ => rfl, fun _ k hk => by simp at hk⟩
  | b :: bs, s, t, i, h => by
    rw [State.writeText, State.memWrite] at h
    split at h
    · cases h
    · rename_i s' hs'
      split at hs'
      · rename_i hi
        cases hs'
        obtain ⟨h1, h2, h3, h4, h5⟩ := State.writeText_spec bs _ t (i + 1) h
        refine ⟨by rw [h1], fun hw => h2 (Memory.write_wf _ _ _ hw),
          fun hb => h3 (Memory.write_below _ _ _ _ hb hi), ?_, ?_⟩
        · intro j hj
          rw [h4 j (by simp only [List.length_cons] at hj; omega)]
          exact Memory.read_write_ne _ _ _ _ (by simp only [List.length_cons] at hj; omega)
        · intro hc k hk
          cases k with
          | zero =>
            rw [h4 (i + 0) (by omega)]
            rcases hc with hc | hw
            · exact Memory.read_write_same_listed _ _ _ (hc b List.mem_cons_self)
            · exact Memory.read_write_same _ _ _ hw
          | succ k =>
            have hc' : (∀ b ∈ bs, b ≠ unlistedByte) ∨ Memory.wf (s.txt.write i b) = true :=
              hc.imp (fun hc b hb => hc b (List.mem_cons_of_mem _ hb)) (Memory.write_wf _ _ _)
            have := h5 hc' k (by simpa using hk)
            rw [List.getElem_cons_succ, ← this]
            congr 1
            omega
      · cases hs'

/-- A run of writes below `TCAP` does not fault. -/
theorem State.writeText_ok : ∀ (bs : List Byte) (s : State) (i : Nat), i + bs.length ≤ s.cfg.TCAP →
    ∃ t, s.writeText i bs = .ok t
  | [], s, i, _ => ⟨s, rfl⟩
  | b :: bs, s, i, h => by
    simp only [List.length_cons] at h
    rw [State.writeText, State.memWrite, if_pos (by omega)]
    exact State.writeText_ok bs _ (i + 1) (by simp only; omega)

end Sys2Proof.Machine
end

