-- ==== Sys2Proof/Laws/PerInstr.lean ====
section
/-! SUPPORT. A statement about every command as syntax, constructor by constructor. -/

namespace Sys2Proof.Laws

/-- The encoding of 30_encoding.md R71 and R72 for one command: the word's `op` field is the command's
opcode and its `z` field is zero. -/
def EncodedFields.Statement (i : Instr) : Prop :=
  (opField (encode i)).toNat = opcode i ∧ zField (encode i) = 0

theorem EncodedFields.cmp (va vb : Reg) : Statement (.cmp va vb) :=
  commandWord_op_z _ _ _ _ _ (by decide)
theorem EncodedFields.add (vd va vb : Reg) : Statement (.add vd va vb) :=
  commandWord_op_z _ _ _ _ _ (by decide)
theorem EncodedFields.neg (vd va : Reg) : Statement (.neg vd va) :=
  commandWord_op_z _ _ _ _ _ (by decide)
theorem EncodedFields.sub (vd va vb : Reg) : Statement (.sub vd va vb) :=
  commandWord_op_z _ _ _ _ _ (by decide)
theorem EncodedFields.mul (vd va vb : Reg) : Statement (.mul vd va vb) :=
  commandWord_op_z _ _ _ _ _ (by decide)
theorem EncodedFields.divmod (vq vr va vb : Reg) : Statement (.divmod vq vr va vb) :=
  commandWord_op_z _ _ _ _ _ (by decide)
theorem EncodedFields.ldi (vd : Reg) : Statement (.ldi vd) :=
  commandWord_op_z _ _ _ _ _ (by decide)
theorem EncodedFields.parse (vd : Reg) : Statement (.parse vd) :=
  commandWord_op_z _ _ _ _ _ (by decide)
theorem EncodedFields.fmt (va : Reg) : Statement (.fmt va) :=
  commandWord_op_z _ _ _ _ _ (by decide)

end Sys2Proof.Laws
end

