-- ==== Sys2Proof/Laws/Step.lean ====
section
/-! SUPPORT. What the invariant says field by field, and the inversion lemmas: everything a command and a
step can do. -/

namespace Sys2Proof.Machine

/-! ## The invariant -/

theorem State.inv_iff (s : State) : s.inv = true ↔
    (∀ r, canonical s.cfg (s.readV r) = true) ∧ s.txt.wf = true ∧ s.txt.below s.cfg.TCAP = true ∧
      s.status.legal = true := by
  have hv : s.v.toList.all (canonical s.cfg) = true ↔ ∀ r, canonical s.cfg (s.readV r) = true := by
    simp only [List.all_eq_true, Vector.mem_toList_iff, State.readV]
    constructor
    · intro h r; exact h _ (Vector.getElem_mem r.isLt)
    · intro h x hx
      obtain ⟨i, hi, rfl⟩ := Vector.getElem_of_mem hx
      exact h ⟨i, hi⟩
  simp only [State.inv, Bool.and_eq_true, hv, and_assoc]

theorem zero_canonical (c : Config) : canonical c (limbsOf c c.L 0) = true := by
  have hz : natOf c (limbsOf c c.L 0) = 0 := by rw [natOf_limbsOf, Nat.zero_mod]
  rw [canonical_iff]
  refine ⟨limbsOf_isLimbVec c 0, ?_⟩
  rw [uN, bitAt_eq c _ _ (limbsOf_ok c _ _), hz]
  simp

theorem wrapN_zero (c : Config) : wrapN c 0 = limbsOf c c.L 0 := by
  simp [wrapN]

theorem fromText_canonical (c : Config) (text : List Byte) (x : LimbVec)
    (h : fromText c text = some x) : canonical c x = true := by
  simp only [fromText] at h
  split at h
  · cases h
  · split at h
    · cases h
    · rename_i result hp
      have hr : canonical c result = true :=
        parseDigits_canonical c _ _ _ (by rw [wrapN_zero]; exact zero_canonical c) hp
      cases h
      split
      · exact negate_canonical c (canonical_isLimbVec c hr)
      · exact hr

/-! ## Everything a command can do -/

/-- If a command answers a next state, it wrote STATUS.CMP, or one value register, or two, or took a fault,
or ended a PARSE either way, or wrote the text of an FMT. What it writes to a value register is canonical
when its sources are. -/
theorem exec_next_cases (i : Instr) (s t : State) (hs : ∀ r, isLimbVec s.cfg (s.readV r) = true)
    (h : exec i s = .next t) :
    (∃ o, t = s.setCmp o) ∨
    (∃ r x, canonical s.cfg x = true ∧ t = s.writeV r x) ∨
    (∃ q r x y, canonical s.cfg x = true ∧ canonical s.cfg y = true ∧ q ≠ r ∧
      t = (s.writeV q x).writeV r y) ∨
    (∃ e, t = s.raiseFault e) ∨
    (∃ r x, canonical s.cfg x = true ∧ t = (s.writeV r x).setPerr false) ∨
    t = s.setPerr true ∨
    (∃ va, i = .fmt va ∧ s.writeTextResult (toText s.cfg (s.readV va)) = .ok t) := by
  cases i with
  | cmp va vb => simp only [exec, execCmp, Host.Outcome.next.injEq] at h; exact .inl ⟨_, h.symm⟩
  | add vd va vb =>
    simp only [exec, execAdd, Host.Outcome.next.injEq] at h
    exact .inr (.inl ⟨_, _, add_canonical _ (hs va) (hs vb), h.symm⟩)
  | neg vd va =>
    simp only [exec, execNeg, Host.Outcome.next.injEq] at h
    exact .inr (.inl ⟨_, _, negate_canonical _ (hs va), h.symm⟩)
  | sub vd va vb =>
    simp only [exec, execSub, Host.Outcome.next.injEq] at h
    exact .inr (.inl ⟨_, _, sub_canonical _ (hs va) (hs vb), h.symm⟩)
  | mul vd va vb =>
    simp only [exec, execMul, Host.Outcome.next.injEq] at h
    exact .inr (.inl ⟨_, _, mul_canonical _ _ _, h.symm⟩)
  | divmod vq vr va vb =>
    simp only [exec, execDivmod] at h
    split at h
    · cases h; exact .inr (.inr (.inr (.inl ⟨_, rfl⟩)))
    · rename_i hne
      split at h
      · cases h; exact .inr (.inr (.inr (.inl ⟨_, rfl⟩)))
      · rename_i q r hd
        cases h
        obtain ⟨h1, h2⟩ := divmod_canonical _ hd
        exact .inr (.inr (.inl ⟨_, _, _, _, h1, h2, hne, rfl⟩))
  | ldi vd =>
    simp only [exec, execLdi, Host.Outcome.next.injEq] at h
    exact .inr (.inl ⟨_, _, fromSmallInteger_canonical _ _, h.symm⟩)
  | parse vd =>
    simp only [exec, execParse] at h
    split at h
    · cases h; exact .inr (.inr (.inr (.inl ⟨_, rfl⟩)))
    · split at h
      · cases h
      · split at h
        · rename_i hx
          cases h
          exact .inr (.inr (.inr (.inr (.inl ⟨_, _, fromText_canonical _ _ _ hx, rfl⟩))))
        · cases h; exact .inr (.inr (.inr (.inr (.inr (.inl rfl)))))
  | fmt va =>
    simp only [exec, execFmt] at h
    split at h
    · cases h
    · rename_i s' hw
      cases h
      exact .inr (.inr (.inr (.inr (.inr (.inr ⟨va, rfl, hw⟩)))))

/-! ## Everything a host action can do -/

theorem hostReg_eq_cmd (c : Config) (r : BitVec 32) : hostReg c r = .cmd ↔ r = 0 := by
  constructor
  · intro h
    by_contra h0
    simp only [hostReg] at h
    rw [if_neg h0] at h
    repeat (split at h; · cases h)
    cases h
  · rintro rfl; rfl

theorem hostReg_eq_txt (c : Config) (r : BitVec 32) (i : Nat) :
    hostReg c r = .txt i ↔ i < c.TCAP ∧ r.toNat = 0x100 + i := by
  constructor
  · intro h
    simp only [hostReg] at h
    iterate 7 (split at h; · cases h)
    split at h
    · rw [HostReg.txt.injEq] at h; omega
    · cases h
  · rintro ⟨hi, hr⟩
    have hne : ∀ k : BitVec 32, k.toNat < 0x100 → ¬ r = k := by
      intro k hk e
      rw [e] at hr
      omega
    simp only [hostReg]
    rw [if_neg (hne 0 (by decide)), if_neg (hne 1 (by decide)), if_neg (hne 2 (by decide)),
      if_neg (hne 4 (by decide)), if_neg (hne 5 (by decide)), if_neg (hne 6 (by decide)),
      if_neg (hne 7 (by decide)), if_pos (by omega), hr, Nat.add_sub_cancel_left]

/-- If a host action answers a next state: a write in the fault state or to nothing stored changes nothing;
otherwise it ran a command, took IllegalCommand, stored its data, returned data, or was a reset. -/
theorem perform_next_cases (s t : State) (a : HostAction) (h : s.perform a = .next t) :
    t = s ∨
    (∃ w i, a = .write 0 w ∧ s.status.fault = false ∧ decode w = .ok i ∧ exec i s = .next t) ∨
    (∃ w e, a = .write 0 w ∧ s.status.fault = false ∧ decode w = .error e ∧
      t = s.raiseFault .illegalCommand) ∨
    (∃ n, s.status.fault = false ∧ t = s.setTlen n) ∨
    (∃ m, s.status.fault = false ∧ t = { s with imm := m }) ∨
    (∃ i b, i < s.cfg.TCAP ∧ s.status.fault = false ∧ t = { s with txt := s.txt.write i b }) ∨
    (∃ r, a = .read r ∧ t = { s with returned := s.returned ++ [s.hostRead r] }) ∨
    (a = .reset ∧ t = s.applyReset) := by
  cases a with
  | read r =>
    simp only [State.perform, Host.Outcome.next.injEq] at h
    exact .inr (.inr (.inr (.inr (.inr (.inr (.inl ⟨r, rfl, h.symm⟩))))))
  | reset =>
    simp only [State.perform, Host.Outcome.next.injEq] at h
    exact .inr (.inr (.inr (.inr (.inr (.inr (.inr ⟨rfl, h.symm⟩))))))
  | write r d =>
    simp only [State.perform, State.hostWrite] at h
    split at h
    · cases h; exact .inl rfl
    · rename_i hf
      have hf : s.status.fault = false := by simpa using hf
      split at h
      · rename_i hreg
        have hr : r = 0 := (hostReg_eq_cmd _ r).mp hreg
        subst hr
        simp only [State.writeCmd] at h
        split at h
        · rename_i e he
          cases h
          exact .inr (.inr (.inl ⟨d, e, rfl, hf, he, rfl⟩))
        · rename_i i hi
          exact .inr (.inl ⟨d, i, rfl, hf, hi, h⟩)
      · cases h; exact .inl rfl
      · cases h; exact .inr (.inr (.inr (.inl ⟨_, hf, rfl⟩)))
      · cases h; exact .inr (.inr (.inr (.inr (.inl ⟨_, hf, rfl⟩))))
      · rename_i i hreg
        cases h
        exact .inr (.inr (.inr (.inr (.inr (.inl ⟨i, _, ((hostReg_eq_txt _ r i).mp hreg).1, hf, rfl⟩)))))
      · cases h; exact .inl rfl

/-! ## A step -/

@[simp] theorem step_idle (s : State) (h : s.pending = []) : step s = .next s := by
  simp [step, State.advance, h]

theorem step_pending (s : State) (a : HostAction) (rest : List HostAction) (h : s.pending = a :: rest) :
    step s = State.perform { s with pending := rest } a := by
  simp [step, State.advance, h]

end Sys2Proof.Machine
end

