-- ==== Sys2Proof/Laws/Text.lean ====
section
/-! SUPPORT. The text grammar, the parser's answer on it, and PARSE of a text that fits the buffer
(45_construction_conversion.md R172, R173, R175). -/

namespace Sys2Proof.Machine

theorem parseDigits_isSome (c : Config) : ∀ (bs : List Byte) (x : LimbVec),
    (parseDigits c x bs).isSome = bs.all isDigit
  | [], _ => rfl
  | b :: bs, x => by
    rw [parseDigits]
    split <;> rename_i h <;> simp [parseDigits_isSome c bs, h]

theorem fromText_isSome (c : Config) (text : List Byte) :
    (fromText c text).isSome = wellFormedText text := by
  have h := parseDigits_isSome c (splitSign text).2 (wrapN c 0)
  simp only [fromText, wellFormedText]
  split
  · simp_all
  · split <;> simp_all

theorem digitString_iff (digits : List Byte) :
    DigitString digits ↔ digits ≠ [] ∧ digits.all isDigit = true := by
  simp [DigitString, isDigit]

/-- The Boolean check of Construction.lean decides the grammar. -/
theorem wellFormedText_iff (text : List Byte) : wellFormedText text = true ↔ TextGrammar text := by
  have key : wellFormedText text = true ↔ DigitString (splitSign text).2 := by
    rw [digitString_iff]; simp [wellFormedText]
  rw [key]
  constructor
  · intro h
    cases text with
    | nil => simp [splitSign, DigitString] at h
    | cons b bs =>
      simp only [splitSign] at h
      split at h
      · exact ⟨[0x2D], bs, by simp_all [minusByte], .inr (.inr rfl), h⟩
      · split at h
        · exact ⟨[0x2B], bs, by simp_all [plusByte], .inr (.inl rfl), h⟩
        · exact ⟨[], b :: bs, rfl, .inl rfl, h⟩
  · rintro ⟨sign, digits, rfl, rfl | rfl | rfl, hd⟩
    · cases digits with
      | nil => exact absurd rfl hd.1
      | cons b bs =>
        have hb : isDigit b = true := by
          have := ((digitString_iff _).mp hd).2
          simp only [List.all_cons, Bool.and_eq_true] at this
          exact this.1
        simp only [List.nil_append, splitSign]
        rw [if_neg (by rintro rfl; revert hb; decide), if_neg (by rintro rfl; revert hb; decide)]
        exact hd
    · simp only [List.cons_append, List.nil_append, splitSign]
      rw [if_neg (by decide), if_pos (by decide)]
      exact hd
    · simp only [List.cons_append, List.nil_append, splitSign]
      rw [if_pos (by decide)]
      exact hd

/-- PARSE of a text that fits the buffer: the text is read whole, and the parser decides. -/
theorem execParse_of_fits (s : State) (vd : Reg) (h : s.tlen.toNat ≤ s.cfg.TCAP) :
    execParse vd s = match fromText s.cfg s.text with
      | some x => .next ((s.writeV vd x).setPerr false)
      | none => .next (s.setPerr true) := by
  have ht : s.textOperand = .ok s.text := by
    rw [State.textOperand, State.readText_spec s _ 0 (by omega), State.text, List.range_eq_range']
  cases hx : fromText s.cfg s.text <;>
    simp only [execParse, if_neg (show ¬ s.tlen.toNat > s.cfg.TCAP by omega), ht, hx]

end Sys2Proof.Machine
end

