-- ==== Sys2Proof/Tests/Slice0.lean ====
section
/-! SUPPORT. The model's own tests. Expected results are those of the spec's tables 95_test_vectors.md,
96_test_vectors_compute.md and 97_test_vectors_shell.md, or words written out from 30_encoding.md R71 and
R72. The last part shows, for every obligation with hypotheses, values that meet them. -/

namespace Sys2Proof.Machine.Tests

-- One theorem after another: each kernel evaluation would otherwise hold a thread of its own.
set_option Elab.async false

/-! ## Helpers -/

/-- After reset, with two Values in `V[1]` and `V[2]`. -/
def with12 (c : Config) (a b : LimbVec) : State := ((State.resetOf c).writeV 1 a).writeV 2 b

/-- After reset, with a text at the start of the buffer and its length in TLEN. -/
def withText (c : Config) (text : List Byte) : State :=
  { State.resetOf c with
    txt := (text.zipIdx.map fun p => (p.2, p.1)).filter fun cell => cell.2 != unlistedByte
    tlen := BitVec.ofNat 16 text.length }

/-- After reset, with host actions to be performed. -/
def withActions (c : Config) (actions : List HostAction) : State := (State.resetOf c).withScript actions

/-- A state in which DivisionByZero has been taken. -/
def faulted (c : Config) : State := (State.resetOf c).raiseFault .divisionByZero

/-- What `f` reads of the next state. -/
def reads {α : Type} (o : Host.Outcome State Fault Refusal) (f : State → α) : Option α :=
  match o with
  | .next t => some (f t)
  | .fault _ => none
  | .refused _ => none

/-- There is a next state. -/
def goesOn (o : Host.Outcome State Fault Refusal) : Bool := (reads o fun _ => ()).isSome

/-! ## Well-formedness: the one check, and a term it refuses -/

theorem test_wellFormed_refuses_equal_destinations :
    (Instr.divmod 3 3 1 2).wellFormed = false ∧ (Instr.divmod 3 4 1 2).wellFormed = true := by decide

/-! ## Decoding: words written out field by field, `z vr vb va vd op` (30_encoding.md R71, R72) -/

theorem test_decode_cmp : decode 0b00000000_0000_0010_0001_0000_00000001 = .ok (.cmp 1 2) := rfl
theorem test_decode_add : decode 0b00000000_0000_0010_0001_0011_00000010 = .ok (.add 3 1 2) := rfl
theorem test_decode_neg : decode 0b00000000_0000_0000_0010_1110_00000011 = .ok (.neg 14 2) := rfl
theorem test_decode_sub : decode 0b00000000_0000_1110_1111_0000_00000100 = .ok (.sub 0 15 14) := rfl
theorem test_decode_mul : decode 0b00000000_0000_0010_0001_0011_00000101 = .ok (.mul 3 1 2) := rfl
theorem test_decode_divmod : decode 0b00000000_0100_0010_0001_0011_00000110 = .ok (.divmod 3 4 1 2) := rfl
theorem test_decode_ldi : decode 0b00000000_0000_0000_0000_0101_00000111 = .ok (.ldi 5) := rfl
theorem test_decode_parse : decode 0b00000000_0000_0000_0000_1111_00001000 = .ok (.parse 15) := rfl
theorem test_decode_fmt : decode 0b00000000_0000_0000_0011_0000_00001001 = .ok (.fmt 3) := rfl

/-- 97_test_vectors_shell.md section 2.9. -/
theorem test_decode_illegal :
    decode 0x0000000A = .error .unknownOpcode ∧ decode 0x01021302 = .error .mustBeZero ∧
    decode 0x00021101 = .error .unusedField ∧ decode 0x00012203 = .error .unusedField ∧
    decode 0x00103009 = .error .unusedField ∧ decode 0x00001006 = .error .sameDestination :=
  ⟨rfl, rfl, rfl, rfl, rfl, rfl⟩

theorem test_assembly : assembly (.divmod 3 4 1 2) = "DIVMOD v3, v4, v1, v2" := by decide

theorem test_decodeTableWord :
    decodeTableWord 32 0x00421306 = some (.divmod 3 4 1 2) ∧ decodeTableWord 32 0 = none := by decide

/-! ## Reset -/

theorem test_reset_inv : State.reset.inv = true := by decide +kernel

/-! ## One command each, as the host's next action -/

/-- 96_test_vectors_compute.md section 2.2: limb 0 decides, both negative. -/
theorem test_cmp_negative_less :
    reads (exec (.cmp 1 2) (with12 .cfgB [0x00, 0xFF] [0x01, 0xFF])) (·.status.word) = some 0x00000020 := by
  decide +kernel

/-- 96_test_vectors_compute.md section 2.2: signs differ. -/
theorem test_cmp_signs_differ :
    reads (exec (.cmp 1 2) (with12 .cfgB [0xFF, 0x07] [0x00, 0xF8])) (·.status.word) = some 0x00000040 := by
  decide +kernel

/-- 96_test_vectors_compute.md section 2.3: the carry crosses a limb. -/
theorem test_add_carry :
    reads (exec (.add 3 1 2) (with12 .cfgB [0xFF, 0x00] [0x01, 0x00])) (·.readV 3) = some [0x00, 0x01] := by
  decide +kernel

/-- 96_test_vectors_compute.md section 2.3: MAX + 1 wraps to MIN, the pad bits follow; the destination is a
source. -/
theorem test_add_wraps :
    reads (exec (.add 1 1 2) (with12 .cfgB [0xFF, 0x07] [0x01, 0x00])) (·.readV 1) = some [0x00, 0xF8] := by
  decide +kernel

/-- 96_test_vectors_compute.md section 2.3. -/
theorem test_neg : reads (exec (.neg 2 1) (with12 .cfgB [0x00, 0x01] [])) (·.readV 2) = some [0x00, 0xFF] := by
  decide +kernel

/-- 96_test_vectors_compute.md section 2.3: MIN is a fixed point. -/
theorem test_neg_min : reads (exec (.neg 2 1) (with12 .cfgB [0x00, 0xF8] [])) (·.readV 2) = some [0x00, 0xF8] := by
  decide +kernel

/-- 96_test_vectors_compute.md section 2.3: the borrow crosses a limb. -/
theorem test_sub_borrow :
    reads (exec (.sub 3 1 2) (with12 .cfgB [0x00, 0x01] [0x01, 0x00])) (·.readV 3) = some [0xFF, 0x00] := by
  decide +kernel

/-- 96_test_vectors_compute.md section 2.3: 0 - MIN wraps to MIN. -/
theorem test_sub_min :
    reads (exec (.sub 3 1 2) (with12 .cfgB [0x00, 0x00] [0x00, 0xF8])) (·.readV 3) = some [0x00, 0xF8] := by
  decide +kernel

/-- 96_test_vectors_compute.md section 2.4: 1000 * -3 wraps to 1096. -/
theorem test_mul_wraps :
    reads (exec (.mul 3 1 2) (with12 .cfgB [0xE8, 0x03] [0xFD, 0xFF])) (·.readV 3) = some [0x48, 0x04] := by
  decide +kernel

/-- 96_test_vectors_compute.md section 2.4: 255 * 255 wraps to -511. -/
theorem test_mul_carries :
    reads (exec (.mul 3 1 2) (with12 .cfgB [0xFF, 0x00] [0xFF, 0x00])) (·.readV 3) = some [0x01, 0xFE] := by
  decide +kernel

/-- 95_test_vectors.md section 1: -7 divided by 2 is -3, remainder -1; the destinations are the sources,
crosswise. -/
theorem test_divmod_negative_dividend :
    reads (exec (.divmod 2 1 1 2) (with12 .cfgB [0xF9, 0xFF] [0x02, 0x00])) (fun t => (t.readV 2, t.readV 1)) =
      some ([0xFD, 0xFF], [0xFF, 0xFF]) := by
  decide +kernel

/-- 97_test_vectors_shell.md section 2.10, action 18: DivisionByZero keeps the destinations. -/
theorem test_divmod_by_zero :
    reads (exec (.divmod 3 4 1 0) (with12 .cfgA [0x7, 0x0] [])) (fun t => (t.status.word, t.readV 3)) =
      some (0x00000003, [0x0, 0x0]) := by
  decide +kernel

/-- 97_test_vectors_shell.md section 2.6: all of IMM is read. -/
theorem test_ldi_wide :
    reads (exec (.ldi 5) { State.resetOf .cfgB with imm := 0x123456789ABCDEF0 }) (·.readV 5) =
      some [0xF0, 0xFE] := by
  decide +kernel

/-- 97_test_vectors_shell.md section 2.6: `-2^127` is sign-extended past bit 127. -/
theorem test_ldi_negative :
    reads (exec (.ldi 5) { State.reset with imm := 0x80000000000000000000000000000000 }) (·.readV 5) =
      some [0, 0, 0, 0x80000000, 0xFFFFFFFF, 0xFFFFFFFF, 0xFFFFFFFF] := by
  decide +kernel

/-- 97_test_vectors_shell.md section 2.7: `-2049` wraps. -/
theorem test_parse_wraps :
    reads (exec (.parse 1) (withText .cfgB [0x2D, 0x32, 0x30, 0x34, 0x39])) (fun t => (t.readV 1, t.status.word)) =
      some ([0xFF, 0x07], 0x00000000) := by
  decide +kernel

/-- 97_test_vectors_shell.md section 2.7: a NUL byte is no terminator, the text is malformed. -/
theorem test_parse_malformed :
    reads (exec (.parse 1) (withText .cfgA [0x31, 0x32, 0x00, 0x33])) (fun t => (t.readV 1, t.status.word)) =
      some ([0x0, 0x0], 0x00000010) := by
  decide +kernel

/-- 97_test_vectors_shell.md section 2.8: MIN, five characters. -/
theorem test_fmt_min :
    reads (exec (.fmt 1) (with12 .cfgB [0x00, 0xF8] [])) (fun t => (t.text, t.tlen)) =
      some ([0x2D, 0x32, 0x30, 0x34, 0x38], 5) := by
  decide +kernel

/-- 97_test_vectors_shell.md section 2.8: the bytes after the text stay. -/
theorem test_fmt_keeps_later_bytes :
    reads (exec (.fmt 1) (withText .cfgA [0x39, 0x38, 0x37])) (fun t => (t.txt.read 0, t.txt.read 1, t.tlen)) =
      some (0x30, 0x38, 1) := by
  decide +kernel

/-- What the host asks of every row: the very next step after reset runs the word. -/
theorem test_step_withFetchWord :
    reads (step (State.reset.withFetchWord 32 0x000FF001)) (·.status.word) = some 0x00000000 ∧
    reads (step (State.reset.withFetchWord 32 0x0000FF06)) (·.status.word) = some 0x00000003 := by
  decide +kernel

/-- 97_test_vectors_shell.md section 2.10, actions 2, 4 and 11: bits dropped on the way in. -/
theorem test_host_writes :
    reads (step (withActions .cfgA [.write 0x002 0x12345678])) (·.hostRead 0x002) = some 0x00005678 ∧
    reads (step (withActions .cfgA [.write 0x100 0x00000137])) (·.hostRead 0x100) = some 0x00000037 ∧
    reads (step (withActions .cfgA [.write 0x005 0xDEADBEEF])) (·.imm) = some 0xDEADBEEF00000000 := by
  decide +kernel

/-- 97_test_vectors_shell.md section 2.10, actions 7 and 9: writes to unmapped and read-only registers. -/
theorem test_host_writes_ignored :
    reads (step (withActions .cfgA [.write 0x108 0x39])) id = some (State.resetOf .cfgA) ∧
    reads (step (withActions .cfgA [.write 0x001 0xFFFFFFFF])) id = some (State.resetOf .cfgA) := by
  decide +kernel

/-! ## Values that meet the hypotheses of the obligations, clause by clause -/

theorem test_witness_DecodeOfEncodeGivesTheCommandBack : (Instr.divmod 15 0 15 0).wellFormed = true := by decide

theorem test_witness_AcceptedWordIsTheEncodingOfItsCommand :
    decode 0x0000FF06 = .ok (.divmod 15 0 15 0) := rfl

theorem test_witness_IllegalWordTakesIllegalCommand :
    (withActions .cfgA [.write 0x000 0x0000000A]).status.fault = false ∧
    (withActions .cfgA [.write 0x000 0x0000000A]).pending = [.write 0x000 0x0000000A] ∧
    IllegalWord 0x0000000A ∧ ¬ IllegalWord 0x00000009 ∧
    reads (exec (.divmod 1 2 3 4) (State.resetOf .cfgA)) (·.status.fault) = some true := by
  decide +kernel

theorem test_witness_StepRunsTheDecodedCommand :
    (withActions .cfgA [.write 0x000 0x00021302]).status.fault = false ∧
    (withActions .cfgA [.write 0x000 0x00021302]).pending = [.write 0x000 0x00021302] ∧
    (decode 0x00021302).toOption = some (.add 3 1 2) := by
  decide +kernel

theorem test_witness_FaultState :
    (faulted .cfgA).status.fault = true ∧
    ((faulted .cfgA).withScript [.write 0x002 5]).pending = [.write 0x002 5] ∧
    ((faulted .cfgA).withScript [.read 0x002]).pending = [.read 0x002] := by
  decide +kernel

/-- Every row of the map at its first and last register number: no number falls in two rows. -/
theorem test_witness_HostRegisterMap :
    (State.resetOf .cfgA).txt.wf = true ∧
    hostReg .cfgA 0x007 = .imm 3 ∧ hostReg .cfgA 0x008 = .unmapped ∧ hostReg .cfgA 0x0FF = .unmapped ∧
    hostReg .cfgA 0x100 = .txt 0 ∧ hostReg .cfgA (BitVec.ofNat 32 (0x100 + 7)) = .txt 7 ∧
    hostReg .cfgA 0x108 = .unmapped ∧ 0x100 + Config.cfgA.TCAP ≤ (0x108 : BitVec 32).toNat ∧
    hostReg .cfgA 0xFFFFFFFF = .unmapped ∧
    (withActions .cfgA [.write 0x107 0x39]).status.fault = false ∧
    reads (step (withActions .cfgA [.write 0x107 0x39])) (·.txt.read 7) = some 0x39 := by
  decide +kernel

theorem test_witness_ReadsHaveNoSideEffectsAndWritesRepeat :
    (withActions .cfgA [.read 0x001, .read 0x001]).pending = [.read 0x001, .read 0x001] ∧
    (withActions .cfgA [.write 0x100 0, .write 0x100 0]).txt.wf = true ∧ (0x100 : BitVec 32) ≠ 0x000 := by
  decide +kernel

theorem test_witness_IdleCoreHoldsItsState : State.reset.pending = [] := rfl

theorem test_witness_StepTakesTheFirstActionOnly :
    reads (step (withActions .cfgA [.read 0x001, .reset])) (fun t => (t.pending, t.returned)) =
      some ([.reset], [0]) := by
  decide +kernel

theorem test_witness_ResetActionSetsEverything :
    ((faulted .cfgA).withScript [.reset]).pending = [.reset] ∧
    goesOn (step ((faulted .cfgA).withScript [.write 0x002 5])) = true := by
  decide +kernel

theorem test_witness_FaultStateLastsUntilReset :
    HostAction.reset ∉ ((faulted .cfgA).withScript [.write 0x002 5, .read 0x001, .reset]).pending.take 2 := by
  decide +kernel

/-- One witness per clause: the fault stays, no fault is taken, a fault is taken. -/
theorem test_witness_FaultIsTakenOnceBetweenResets :
    reads (step ((faulted .cfgA).withScript [.write 0x000 0x00000000])) (·.status.word) = some 0x00000003 ∧
    reads (step (withActions .cfgA [.write 0x000 0x00011102])) (·.status.fault) = some false ∧
    reads (step (withActions .cfgA [.write 0x000 0x00000000])) (·.status.fault) = some true := by
  decide +kernel

theorem test_witness_DivisionByZeroIsRaisedByDivmodAlone :
    (State.resetOf .cfgA).canonicalAt 0 = true ∧ (State.resetOf .cfgA).intAt 0 = 0 ∧
    (State.resetOf .cfgA).inv = true ∧
    reads (exec (.divmod 15 0 15 0) (State.resetOf .cfgA)) (·.status.fcause) = some 1 := by
  decide +kernel

/-- `TLEN = TCAP + 1`, the least length that faults. -/
theorem test_witness_TextLengthIsRaisedByParseAlone :
    Config.cfgA.TCAP < ((State.resetOf .cfgA).setTlen 9).tlen.toNat ∧
    reads (exec (.parse 1) ((State.resetOf .cfgA).setTlen 9)) (·.status.word) = some 0x00000007 := by
  decide +kernel

/-- The empty text, and a malformed text of length `TCAP`. -/
theorem test_witness_ParseErrorSetsPerrAlone :
    ¬ TextGrammar (State.resetOf .cfgA).text ∧
    ((State.resetOf .cfgA).setTlen 8).tlen.toNat = Config.cfgA.TCAP ∧
    ¬ TextGrammar ((State.resetOf .cfgA).setTlen 8).text := by
  simp only [← wellFormedText_iff]
  decide +kernel

theorem test_witness_FirstConditionIsReported :
    IllegalWord 0x00010108 ∧ (decode 0x00000108).toOption = some (.parse 1) ∧
    Config.cfgA.TCAP < ((State.resetOf .cfgA).setTlen 0xFFFF).tlen.toNat ∧
    (decode 0x00421306).toOption = some (.divmod 3 4 1 2) ∧ (State.resetOf .cfgA).canonicalAt 2 = true ∧
    (State.resetOf .cfgA).intAt 2 = 0 ∧ ¬ TextGrammar (State.resetOf .cfgA).text ∧
    (withActions .cfgA [cmdWrite 0x00421306]).pending = [.write 0x000 0x00421306] := by
  simp only [← wellFormedText_iff]
  decide +kernel

/-- A wrapping quotient, and a wrapping text of length `TCAP`. -/
theorem test_witness_OverflowIsNoException :
    (with12 .cfgA [0x0, 0x8] [0xF, 0xF]).canonicalAt 2 = true ∧
    (with12 .cfgA [0x0, 0x8] [0xF, 0xF]).intAt 2 ≠ 0 ∧
    (withText .cfgA (List.replicate 8 0x39)).tlen.toNat = Config.cfgA.TCAP ∧
    TextGrammar (withText .cfgA (List.replicate 8 0x39)).text := by
  simp only [← wellFormedText_iff]
  decide +kernel

theorem test_witness_OnlyCmpWritesTheCmpFlag :
    goesOn (exec (.cmp 1 2) (State.resetOf .cfgA)) = true ∧
    goesOn (exec (.fmt 1) (State.resetOf .cfgA)) = true ∧ ∀ va vb, Instr.fmt 1 ≠ .cmp va vb := by
  decide +kernel

theorem test_witness_OnlyParseWritesPerr :
    goesOn (exec (.parse 1) (withText .cfgA [0x37])) = true ∧ TextGrammar (withText .cfgA [0x37]).text ∧
    (withText .cfgA [0x37]).tlen.toNat ≤ Config.cfgA.TCAP ∧ ¬ TextGrammar (withText .cfgA [0x2B]).text := by
  simp only [← wellFormedText_iff]
  decide +kernel

/-- MIN, MAX and 0, with pad bits. -/
theorem test_witness_WrapNamesEachIntegerOnce :
    canonical .cfgB [0x00, 0xF8] = true ∧ sval .cfgB [0x00, 0xF8] = minInt .cfgB ∧
    canonical .cfgB [0xFF, 0x07] = true ∧ sval .cfgB [0xFF, 0x07] = maxInt .cfgB ∧
    wrapN .cfgB 2048 = [0x00, 0xF8] := by
  decide +kernel

/-- 96_test_vectors_compute.md section 2.1: a limb vector with foreign pad bits, and a configuration without
pad bits. -/
theorem test_witness_NormAndZpadSetThePadBits :
    isLimbVec .cfgB [0x34, 0xA2] = true ∧ normN .cfgB [0x34, 0xA2] = [0x34, 0x02] ∧
    normN .cfgB [0x00, 0x08] = [0x00, 0xF8] ∧ isLimbVec .cfgA [0x0, 0x8] = true ∧ Config.cfgA.P = 0 := by
  decide +kernel

theorem test_witness_MagnitudeIsTheAbsoluteValue :
    canonical .cfgB [0x00, 0xF8] = true ∧ magnitude .cfgB [0x00, 0xF8] = [0x00, 0x08] := by
  decide +kernel

/-- 96_test_vectors_compute.md section 2.1: a magnitude that is 0 modulo `2^N`, and one that reads negative. -/
theorem test_witness_SignReapplicationWrapsTheSignedNumber :
    natOf .cfgB [0x00, 0x10] % 2 ^ Config.cfgB.N = 0 ∧
    2 ^ (Config.cfgB.N - 1) ≤ natOf .cfgB [0x00, 0x08] % 2 ^ Config.cfgB.N ∧
    fromMagnitudeAndSign .cfgB [0xB8, 0x0B, 0x00, 0x00] true = [0x48, 0x04] := by
  decide +kernel

theorem test_witness_MostNegativeValueNegatesToItself :
    canonical .cfgB [0x00, 0xF8] = true ∧ negate .cfgB [0x00, 0xF8] = [0x00, 0xF8] ∧
    canonical .cfgB [0x00, 0x00] = true ∧ negate .cfgB [0x00, 0x00] = [0x00, 0x00] ∧
    canonical .cfgB [0x01, 0xF8] = true ∧ sval .cfgB [0x01, 0xF8] ≠ minInt .cfgB := by
  decide +kernel

theorem test_witness_UnsignedComparisonOrdersNumbers :
    isLimbVec .cfgB [0xFF, 0x07] = true ∧ isLimbVec .cfgB [0x00, 0xF8] = true ∧
    ucompare [0xFF, 0x07] [0x00, 0xF8] = .less := by
  decide +kernel

theorem test_witness_CompareIsAStrictTotalOrder :
    canonical .cfgB [0x00, 0xF8] = true ∧ canonical .cfgB [0xFF, 0xFF] = true ∧
    canonical .cfgB [0x00, 0x01] = true ∧ compareValues .cfgB [0x00, 0xF8] [0xFF, 0xFF] = .less ∧
    compareValues .cfgB [0xFF, 0xFF] [0x00, 0x01] = .less := by
  decide +kernel

/-- The difference at both ends of its range. -/
theorem test_witness_CompareAgreesWithTheDifference :
    sval .cfgB [0xFF, 0x07] - sval .cfgB [0x00, 0x00] = maxInt .cfgB ∧
    sval .cfgB [0x00, 0xF8] - sval .cfgB [0x00, 0x00] = minInt .cfgB ∧
    canonical .cfgB [0x00, 0x00] = true := by
  decide +kernel

/-- For CMP, ADD, SUB, NEG, MUL and DIVMOD, and for the laws of the engines: MIN and -1, with pad bits. -/
theorem test_witness_arithmetic :
    (with12 .cfgB [0x00, 0xF8] [0xFF, 0xFF]).canonicalAt 1 = true ∧
    (with12 .cfgB [0x00, 0xF8] [0xFF, 0xFF]).canonicalAt 2 = true ∧
    (with12 .cfgB [0x00, 0xF8] [0xFF, 0xFF]).intAt 1 = minInt .cfgB ∧
    (with12 .cfgB [0x00, 0xF8] [0xFF, 0xFF]).intAt 2 = -1 ∧ (3 : Reg) ≠ 4 ∧
    canonical .cfgB [0x00, 0xF8] = true ∧ canonical .cfgB [0xFF, 0xFF] = true ∧
    canonical .cfgB [0x01, 0x00] = true ∧ sval .cfgB [0xFF, 0xFF] ≠ 0 := by
  decide +kernel

/-- The ends of the range of IMM, and a configuration with `N >= 128`. -/
theorem test_witness_LdiWritesTheWrappedImmediate :
    128 ≤ Config.reference.N ∧ (-2 ^ 127 : Int) ≤ -2 ^ 127 ∧ (2 ^ 127 - 1 : Int) ≤ 2 ^ 127 - 1 ∧
    fromSmallInteger .cfgB (-2 ^ 127) = [0x00, 0x00] ∧ fromSmallInteger .cfgB (2 ^ 127 - 1) = [0xFF, 0xFF] := by
  decide +kernel

/-- A signed text of length `TCAP`. -/
theorem test_witness_ParseWritesTheWrappedDecimalValue :
    (withText .cfgA [0x2D, 0x30, 0x30, 0x30, 0x30, 0x31, 0x32, 0x38]).text =
      [0x2D] ++ [0x30, 0x30, 0x30, 0x30, 0x31, 0x32, 0x38] ∧
    (withText .cfgA [0x2D, 0x30, 0x30, 0x30, 0x30, 0x31, 0x32, 0x38]).tlen.toNat = Config.cfgA.TCAP ∧
    LeadingSign [0x2D] ∧ DigitString [0x30, 0x30, 0x30, 0x30, 0x31, 0x32, 0x38] := by
  decide +kernel

theorem test_witness_FmtWritesTheDecimalText :
    (with12 .cfgB [0x00, 0xF8] []).canonicalAt 1 = true ∧
    decimalText ((with12 .cfgB [0x00, 0xF8] []).intAt 1) = [0x2D, 0x32, 0x30, 0x34, 0x38] := by
  have h : (with12 .cfgB [0x00, 0xF8] []).intAt 1 = -2048 := by decide +kernel
  exact ⟨by decide +kernel, by rw [h]; simp [decimalText]⟩

theorem test_witness_FmtThenParseReproducesTheValue :
    (withActions .cfgB [.write 0x000 (encode (.fmt 1)), .write 0x000 (encode (.parse 3))]).inv = true ∧
    (withActions .cfgB [.write 0x000 (encode (.fmt 1)), .write 0x000 (encode (.parse 3))]).status.fault =
      false ∧
    (withActions .cfgB [.write 0x000 (encode (.fmt 1)), .write 0x000 (encode (.parse 3))]).pending =
      [.write 0x000 (encode (.fmt 1)), .write 0x000 (encode (.parse 3))] := by
  decide +kernel

/-- `LDI v5, #-7` as five host writes. -/
theorem test_witness_PseudoLdiLoadsItsInteger :
    (State.resetOf .cfgB).status.fault = false ∧
    (State.after 5 ((State.resetOf .cfgB).withScript (scriptLdi 5 (-7)))).map (·.readV 5) =
      some [0xF9, 0xFF] := by
  decide +kernel

/-- Every command answers a next state, DIVMOD in both ways. -/
theorem test_witness_frames :
    goesOn (exec (.add 3 1 2) (State.resetOf .cfgA)) = true ∧
    goesOn (exec (.sub 3 1 2) (State.resetOf .cfgA)) = true ∧
    goesOn (exec (.neg 3 1) (State.resetOf .cfgA)) = true ∧
    goesOn (exec (.mul 3 1 2) (State.resetOf .cfgA)) = true ∧
    goesOn (exec (.ldi 3) (State.resetOf .cfgA)) = true ∧
    goesOn (exec (.divmod 3 4 1 2) (State.resetOf .cfgA)) = true ∧
    goesOn (exec (.divmod 3 4 1 2) (with12 .cfgA [0x7, 0x0] [0x2, 0x0])) = true ∧
    goesOn (exec (.cmp 1 2) (State.resetOf .cfgA)) = true ∧
    goesOn (exec (.parse 3) (withText .cfgA [0x37])) = true ∧
    goesOn (exec (.fmt 1) (State.resetOf .cfgA)) = true := by
  decide +kernel

/-- Two buffers that agree below TLEN and differ above it. -/
theorem test_witness_TextIsReachedByParseAndFmtAlone :
    (∀ i, i < (withText .cfgA [0x37]).tlen.toNat →
      Memory.read [(0, 0x37), (1, 0x39)] i = (withText .cfgA [0x37]).txt.read i) ∧
    (∀ vd, Instr.ldi 1 ≠ .parse vd) ∧ (∀ va, Instr.ldi 1 ≠ .fmt va) := by
  decide +kernel

theorem test_witness_ImmIsReadByLdiAlone : ∀ vd, Instr.fmt 1 ≠ .ldi vd := by decide

theorem test_witness_StepKeepsTheInvariant :
    (withActions .cfgA [cmdWrite 0x00021302]).inv = true ∧
    goesOn (step (withActions .cfgA [cmdWrite 0x00021302])) = true := by
  decide +kernel

/-- CFG-B with limbs of 4 bits. -/
def cfgNarrow : Config where
  N := 12
  W := 4
  TCAP := 8
  four_le_N := by decide
  one_le_W := by decide
  text_fits := by decide +kernel
  TCAP_le := by decide

/-- 1000 in limbs of 8 bits and in limbs of 4 bits. -/
theorem test_witness_NoResultDependsOnTheLimbWidth :
    (with12 .cfgB [0xE8, 0x03] [0x00, 0x00]).inv = true ∧
    (with12 cfgNarrow [0x8, 0xE, 0x3] [0x0, 0x0, 0x0]).inv = true ∧
    SameButWidth (with12 .cfgB [0xE8, 0x03] [0x00, 0x00])
      (with12 cfgNarrow [0x8, 0xE, 0x3] [0x0, 0x0, 0x0]) := by
  unfold SameButWidth
  decide +kernel

end Sys2Proof.Machine.Tests
end

section
/-! SUPPORT. What a command does to STATUS, which commands a field of the state has no part in, and the state
after reset (10_state.md R28, R29, R30, R33). -/

namespace Sys2Proof.Machine

/-! ## The zero limb vector -/

theorem limbsOf_zero (c : Config) : ∀ K, limbsOf c K 0 = List.replicate K 0
  | 0 => rfl
  | K + 1 => by simp [limbsOf, limbsOf_zero c K, List.replicate_succ]

theorem zeroLimbs_canonical (c : Config) : canonical c (List.replicate c.L 0) = true :=
  limbsOf_zero c c.L ▸ zero_canonical c

theorem sval_zeroLimbs (c : Config) : sval c (List.replicate c.L 0) = 0 := by
  have hz : natOf c (limbsOf c c.L 0) = 0 := by rw [natOf_limbsOf, Nat.zero_mod]
  have hb : bitAt c (limbsOf c c.L 0) (c.N - 1) = 0 := by
    rw [bitAt_eq c _ _ (limbsOf_ok c _ _), hz, Nat.zero_div, Nat.zero_mod]
  rw [← limbsOf_zero, sval, if_pos hb, uN, hz, Nat.zero_mod, Nat.cast_zero]

/-! ## The fields of STATUS in the data the host reads -/

@[simp] theorem State.hostRead_status (s : State) : s.hostRead 0x001 = s.status.word := rfl

theorem Status.word_cmp (t : Status) : t.word.extractLsb' 5 2 = t.cmp := by
  change BitVec.extractLsb' (n := 25 + 2 + 1 + 3 + 1) 5 2
    ((0 : BitVec 25) ++ t.cmp ++ flagBit t.perr ++ t.fcause ++ flagBit t.fault) = t.cmp
  rw [BitVec.extractLsb'_append_eq_of_le (by decide), BitVec.extractLsb'_append_eq_of_le (by decide),
    BitVec.extractLsb'_append_eq_of_le (by decide)]
  exact BitVec.extractLsb'_append_eq_right

theorem Status.word_perr (t : Status) : t.word.extractLsb' 4 1 = flagBit t.perr := by
  change BitVec.extractLsb' (n := 25 + 2 + 1 + 3 + 1) 4 1
    ((0 : BitVec 25) ++ t.cmp ++ flagBit t.perr ++ t.fcause ++ flagBit t.fault) = flagBit t.perr
  rw [BitVec.extractLsb'_append_eq_of_le (by decide), BitVec.extractLsb'_append_eq_of_le (by decide)]
  exact BitVec.extractLsb'_append_eq_right

/-! ## What a command does to STATUS -/

theorem Cause.code_cases (e : Cause) : e.code = 1 ∨ e.code = 2 ∨ e.code = 3 := by
  cases e <;> decide

theorem State.writeTextResult_status {s t : State} {out : List Byte}
    (h : s.writeTextResult out = .ok t) : t.status = s.status := by
  rw [State.writeTextResult] at h
  split at h
  · cases h
  next s' hw =>
    obtain ⟨hs', -⟩ := State.writeText_spec out s s' 0 hw
    cases h
    rw [State.setTlen_status, hs']

/-- From every state, canonical or not: CMP and PARSE write their own flag, a command that faults writes the
fault fields and nothing else, and no command writes STATUS in another way. -/
theorem exec_status_cases {i : Instr} {s t : State} (h : exec i s = .next t) :
    t.status = s.status ∨
    (∃ va vb, i = .cmp va vb) ∧ (∃ o : Comparison, t = s.setCmp o) ∨
    (∃ vd, i = .parse vd) ∧ (∃ b, t.status = (s.setPerr b).status) ∨
    ∃ e, t = s.raiseFault e := by
  cases i with
  | cmp va vb => cases h; exact .inr (.inl ⟨⟨va, vb, rfl⟩, _, rfl⟩)
  | add vd va vb => cases h; exact .inl rfl
  | neg vd va => cases h; exact .inl rfl
  | sub vd va vb => cases h; exact .inl rfl
  | mul vd va vb => cases h; exact .inl rfl
  | divmod vq vr va vb =>
    simp only [exec, execDivmod] at h
    split at h
    · cases h; exact .inr (.inr (.inr ⟨_, rfl⟩))
    · split at h
      · cases h; exact .inr (.inr (.inr ⟨_, rfl⟩))
      · cases h; exact .inl rfl
  | ldi vd => cases h; exact .inl rfl
  | parse vd =>
    simp only [exec, execParse] at h
    split at h
    · cases h; exact .inr (.inr (.inr ⟨_, rfl⟩))
    · split at h
      · cases h
      · split at h <;> cases h <;> exact .inr (.inr (.inl ⟨⟨vd, rfl⟩, _, rfl⟩))
  | fmt va =>
    simp only [exec, execFmt] at h
    split at h
    · cases h
    next hw => cases h; exact .inl (State.writeTextResult_status hw)

/-- A host action other than a reset keeps FAULT and FCAUSE, or it takes a fault in the running state. -/
theorem perform_fault_cases {s t : State} {a : HostAction} (ha : a ≠ .reset) (h : s.perform a = .next t) :
    (t.status.fault = s.status.fault ∧ t.status.fcause = s.status.fcause) ∨
    (s.status.fault = false ∧ ∃ e, t = s.raiseFault e) := by
  obtain rfl | ⟨w, i, -, hf, -, hi⟩ | ⟨w, e, -, hf, -, rfl⟩ | ⟨n, -, rfl⟩ | ⟨m, -, rfl⟩ |
    ⟨i, b, -, -, rfl⟩ | ⟨r, -, rfl⟩ | ⟨hr, -⟩ := perform_next_cases s t a h
  · exact .inl ⟨rfl, rfl⟩
  · obtain hs | ⟨-, o, rfl⟩ | ⟨-, b, hs⟩ | he := exec_status_cases hi
    · exact .inl (by simp [hs])
    · exact .inl ⟨rfl, rfl⟩
    · exact .inl (by simp [hs])
    · exact .inr ⟨hf, he⟩
  · exact .inr ⟨hf, _, rfl⟩
  · exact .inl ⟨rfl, rfl⟩
  · exact .inl ⟨rfl, rfl⟩
  · exact .inl ⟨rfl, rfl⟩
  · exact .inl ⟨rfl, rfl⟩
  · exact absurd hr ha

/-! ## What a command does not depend on -/

/-- The update `u` replaces nothing that the command `i` reads or writes: it keeps what `i` reads and
commutes with every write of `i`. -/
structure Untouched (i : Instr) (u : State → State) : Prop where
  cfg : ∀ s, (u s).cfg = s.cfg
  v : ∀ s, (u s).v = s.v
  writeV : ∀ s r x, (u s).writeV r x = u (s.writeV r x)
  raiseFault : ∀ s e, (u s).raiseFault e = u (s.raiseFault e)
  setCmp : ∀ va vb, i = .cmp va vb → ∀ s o, (u s).setCmp o = u (s.setCmp o)
  imm : ∀ vd, i = .ldi vd → ∀ s, (u s).imm = s.imm
  tlen : ∀ vd, i = .parse vd → ∀ s, (u s).tlen = s.tlen
  txt : (∃ vd, i = .parse vd) ∨ (∃ va, i = .fmt va) → ∀ s, (u s).txt = s.txt
  setPerr : ∀ vd, i = .parse vd → ∀ s b, (u s).setPerr b = u (s.setPerr b)
  setTxt : ∀ va, i = .fmt va → ∀ s m, { u s with txt := m } = u { s with txt := m }
  setTlen : ∀ va, i = .fmt va → ∀ s n, (u s).setTlen n = u (s.setTlen n)

theorem State.readText_congr {s s' : State} (hc : s'.cfg = s.cfg) (ht : s'.txt = s.txt) :
    ∀ n i, s'.readText i n = s.readText i n
  | 0, _ => rfl
  | n + 1, i => by simp only [State.readText, State.memRead, hc, ht, State.readText_congr hc ht n]

section
variable {i : Instr} {u : State → State} (hu : Untouched i u)
include hu

theorem Untouched.readV (s : State) (r : Reg) : (u s).readV r = s.readV r := by
  simp only [State.readV, hu.v]

theorem Untouched.textOperand {vd : Reg} (hi : i = .parse vd) (s : State) :
    (u s).textOperand = s.textOperand := by
  rw [State.textOperand, hu.tlen vd hi, State.textOperand,
    State.readText_congr (hu.cfg s) (hu.txt (.inl ⟨vd, hi⟩) s)]

theorem Untouched.memWrite {va : Reg} (hi : i = .fmt va) (s : State) (k : Nat) (b : Byte) :
    (u s).memWrite k b = (s.memWrite k b).map u := by
  rw [State.memWrite, hu.setTxt va hi, hu.txt (.inr ⟨va, hi⟩), hu.cfg, State.memWrite]
  split <;> rfl

theorem Untouched.writeText {va : Reg} (hi : i = .fmt va) : ∀ (bs : List Byte) (s : State) (k : Nat),
    (u s).writeText k bs = (s.writeText k bs).map u
  | [], _, _ => rfl
  | b :: bs, s, k => by
    rw [State.writeText, hu.memWrite hi, State.writeText]
    cases s.memWrite k b with
    | error e => rfl
    | ok t => exact Untouched.writeText hi bs t (k + 1)

theorem Untouched.writeTextResult {va : Reg} (hi : i = .fmt va) (out : List Byte) (s : State) :
    (u s).writeTextResult out = (s.writeTextResult out).map u := by
  simp only [State.writeTextResult, hu.writeText hi]
  cases s.writeText 0 out with
  | error e => rfl
  | ok t => simp only [Except.map, hu.setTlen va hi]

/-- What a command does not touch it carries along. -/
theorem Untouched.exec_eq_mapNext (s : State) : exec i (u s) = mapNext u (exec i s) := by
  cases i with
  | cmp va vb => simp only [exec, execCmp, hu.cfg, hu.readV, hu.setCmp va vb rfl, mapNext]
  | add vd va vb => simp only [exec, execAdd, hu.cfg, hu.readV, hu.writeV, mapNext]
  | neg vd va => simp only [exec, execNeg, hu.cfg, hu.readV, hu.writeV, mapNext]
  | sub vd va vb => simp only [exec, execSub, hu.cfg, hu.readV, hu.writeV, mapNext]
  | mul vd va vb => simp only [exec, execMul, hu.cfg, hu.readV, hu.writeV, mapNext]
  | divmod vq vr va vb =>
    simp only [exec, execDivmod, hu.cfg, hu.readV, hu.writeV, hu.raiseFault]
    split
    · rfl
    · split <;> rfl
  | ldi vd =>
    simp only [exec, execLdi, State.immOperand, hu.imm vd rfl, hu.cfg, hu.writeV, mapNext]
  | parse vd =>
    simp only [exec, execParse, hu.cfg, hu.tlen vd rfl, hu.textOperand rfl, hu.writeV,
      hu.setPerr vd rfl, hu.raiseFault]
    split
    · rfl
    · split
      · rfl
      · split <;> rfl
  | fmt va =>
    simp only [exec, execFmt, hu.cfg, hu.readV, hu.writeTextResult rfl]
    cases s.writeTextResult (toText s.cfg (s.readV va)) <;> rfl

end

/-- STATUS.CMP with `x` in it is untouched by every command but CMP. -/
theorem untouched_cmp {i : Instr} (hi : ∀ va vb, i ≠ .cmp va vb) (x : BitVec 2) :
    Untouched i fun t => { t with status := { t.status with cmp := x } } where
  cfg _ := rfl
  v _ := rfl
  writeV _ _ _ := rfl
  raiseFault _ _ := rfl
  setCmp va vb h := absurd h (hi va vb)
  imm _ _ _ := rfl
  tlen _ _ _ := rfl
  txt _ _ := rfl
  setPerr _ _ _ _ := rfl
  setTxt _ _ _ _ := rfl
  setTlen _ _ _ _ := rfl

/-- STATUS.PERR with `x` in it is untouched by every command but PARSE. -/
theorem untouched_perr {i : Instr} (hi : ∀ vd, i ≠ .parse vd) (x : Bool) :
    Untouched i fun t => t.setPerr x where
  cfg _ := rfl
  v _ := rfl
  writeV _ _ _ := rfl
  raiseFault _ _ := rfl
  setCmp _ _ _ _ _ := rfl
  imm _ _ _ := rfl
  tlen _ _ _ := rfl
  txt _ _ := rfl
  setPerr vd h := absurd h (hi vd)
  setTxt _ _ _ _ := rfl
  setTlen _ _ _ _ := rfl

/-! ## The flags -/

theorem exec_cmp (va vb : Reg) (s : State) :
    exec (.cmp va vb) s = .next (s.setCmp (compareValues s.cfg (s.readV va) (s.readV vb))) := rfl

theorem exec_keeps_cmp {i : Instr} {s t : State} (hi : ∀ va vb, i ≠ .cmp va vb)
    (h : exec i s = .next t) : t.status.cmp = s.status.cmp := by
  obtain hs | ⟨⟨va, vb, hc⟩, -⟩ | ⟨-, b, hs⟩ | ⟨e, rfl⟩ := exec_status_cases h
  · rw [hs]
  · exact absurd hc (hi va vb)
  · rw [hs]; rfl
  · rfl

theorem exec_keeps_perr {i : Instr} {s t : State} (hi : ∀ vd, i ≠ .parse vd)
    (h : exec i s = .next t) : t.status.perr = s.status.perr := by
  obtain hs | ⟨-, o, rfl⟩ | ⟨⟨vd, hp⟩, -⟩ | ⟨e, rfl⟩ := exec_status_cases h
  · rw [hs]
  · rfl
  · exact absurd hp (hi vd)
  · rfl

theorem exec_parse (vd : Reg) (s : State) : exec (.parse vd) s = execParse vd s := rfl

/-- PARSE of a text that fits sets PERR to whether the text is malformed. -/
theorem exec_parse_perr {s t : State} {vd : Reg} (hfit : s.tlen.toNat ≤ s.cfg.TCAP)
    (h : exec (.parse vd) s = .next t) : t.status.perr = !wellFormedText s.text := by
  rw [exec_parse, execParse_of_fits s vd hfit] at h
  rw [← fromText_isSome s.cfg]
  split at h
  next hx => cases h; simp [hx]
  next hx => cases h; simp [hx]

/-- The old PERR has no part in a PARSE of a text that fits. -/
theorem exec_parse_setPerr {s : State} (vd : Reg) (x : Bool) (hfit : s.tlen.toNat ≤ s.cfg.TCAP) :
    exec (.parse vd) (s.setPerr x) = exec (.parse vd) s := by
  rw [exec_parse, exec_parse, execParse_of_fits s vd hfit]
  exact execParse_of_fits (s.setPerr x) vd hfit

/-! ## The obligations on the state -/

/-- Settles O18: a step that is no reset keeps FAULT and FCAUSE or takes a fault in the running state. -/
theorem faultIsTakenOnceBetweenResets : Obligations.FaultIsTakenOnceBetweenResets := by
  refine ⟨fun c => ⟨rfl, rfl⟩, fun s t a rest ha hp h => ?_⟩
  rw [step_pending s a rest hp] at h
  obtain ⟨hfault, hcause⟩ | ⟨hrun, e, rfl⟩ := perform_fault_cases ha h
  · exact ⟨fun hs => ⟨hfault.trans hs, hcause⟩, fun _ _ => hcause,
      fun hs ht => absurd (hfault.symm.trans ht) (by simp [hs])⟩
  · exact ⟨fun hs => absurd (hrun.symm.trans hs) (by decide), fun _ ht => absurd ht (by simp),
      fun _ _ => e.code_cases⟩

/-- Settles O24, by what each command does to STATUS and by CMP being untouched by all others. -/
theorem onlyCmpWritesTheCmpFlag : Obligations.OnlyCmpWritesTheCmpFlag := by
  refine ⟨fun s => s.status.word_cmp, fun i s t h => ⟨fun hi => exec_keeps_cmp hi h, ?_⟩,
    fun i s x hi => (untouched_cmp hi x).exec_eq_mapNext s, fun va vb s x => rfl, fun c => rfl⟩
  rintro va vb rfl
  rw [exec_cmp] at h
  cases h
  simp only [State.setCmp_status]
  cases compareValues s.cfg (s.readV va) (s.readV vb) <;> rfl

/-- Settles O25, by what each command does to STATUS, PERR being untouched by all but PARSE, and the parser
deciding the grammar. -/
theorem onlyParseWritesPerr : Obligations.OnlyParseWritesPerr := by
  refine ⟨fun s => s.status.word_perr, fun i s t hi h => exec_keeps_perr hi h, ?_,
    fun i s x hi => (untouched_perr hi x).exec_eq_mapNext s,
    fun vd s x hfit => exec_parse_setPerr vd x hfit, fun c => rfl⟩
  intro vd s t hfit h
  rw [exec_parse_perr hfit h, ← wellFormedText_iff]
  exact ⟨fun hw => by simp [hw], fun hw => by simp [hw]⟩

/-- Settles O14: the values of the reset state, and the integer the zero limb vector holds. -/
theorem resetValues : Obligations.ResetValues := by
  intro c
  refine ⟨fun r => ?_, rfl, rfl, fun i => rfl, rfl, rfl, rfl, rfl⟩
  rw [State.intAt, State.readV_resetOf]
  exact ⟨rfl, zeroLimbs_canonical c, sval_zeroLimbs c⟩

end Sys2Proof.Machine
end

section
/-! SUPPORT. The words of IMM, the rows of the host register map, what a host read and a host write do at each
of them, and the text buffer under PARSE and FMT (20_memory.md R52, R56, R57, R59, R64). -/

namespace Sys2Proof.Machine

/-! ## The words of IMM (20_memory.md R52) -/

theorem immWord_words (f : Fin 4 → HostWord) (j : Fin 4) :
    immWord (f 3 ++ f 2 ++ f 1 ++ f 0) j = f j := by
  change BitVec.extractLsb' (n := 32 + 32 + 32 + 32) (32 * j.val) 32 (f 3 ++ f 2 ++ f 1 ++ f 0) = f j
  match j with
  | 0 => exact BitVec.extractLsb'_append_eq_right
  | 1 =>
    rw [BitVec.extractLsb'_append_eq_of_le (by decide)]
    exact BitVec.extractLsb'_append_eq_right
  | 2 =>
    rw [BitVec.extractLsb'_append_eq_of_le (by decide), BitVec.extractLsb'_append_eq_of_le (by decide)]
    exact BitVec.extractLsb'_append_eq_right
  | 3 =>
    rw [BitVec.extractLsb'_append_eq_of_le (by decide), BitVec.extractLsb'_append_eq_of_le (by decide)]
    exact BitVec.extractLsb'_append_eq_left

theorem immWord_setImmWord (m : BitVec 128) (i j : Fin 4) (d : HostWord) :
    immWord (setImmWord m i d) j = if j = i then d else immWord m j :=
  immWord_words (fun j => if j = i then d else immWord m j) j

/-- The lower two words, read at once. -/
theorem immWord_one_append_zero (m : BitVec 128) : immWord m 1 ++ immWord m 0 = m.extractLsb' 0 64 :=
  BitVec.extractLsb'_append_extractLsb'_eq_extractLsb' rfl

/-- The upper two words, read at once. -/
theorem immWord_three_append_two (m : BitVec 128) : immWord m 3 ++ immWord m 2 = m.extractLsb' 64 64 :=
  BitVec.extractLsb'_append_extractLsb'_eq_extractLsb' rfl

theorem immWord_lower_three (m : BitVec 128) :
    immWord m 2 ++ immWord m 1 ++ immWord m 0 = m.extractLsb' 0 96 := by
  rw [show immWord m 2 ++ immWord m 1 = m.extractLsb' 32 64 from
    BitVec.extractLsb'_append_extractLsb'_eq_extractLsb' rfl]
  exact BitVec.extractLsb'_append_extractLsb'_eq_extractLsb' rfl

theorem immWord_upper_three (m : BitVec 128) :
    immWord m 3 ++ immWord m 2 ++ immWord m 1 = m.extractLsb' 32 96 := by
  rw [immWord_three_append_two]
  exact BitVec.extractLsb'_append_extractLsb'_eq_extractLsb' rfl

theorem imm_eq_words (m : BitVec 128) :
    m = immWord m 3 ++ immWord m 2 ++ immWord m 1 ++ immWord m 0 := by
  rw [immWord_upper_three]
  exact (BitVec.extractLsb'_append_extractLsb' (w := 96) (len := 32)).symm

theorem eq_of_immWord_eq {m m' : BitVec 128} (h : ∀ j, immWord m j = immWord m' j) : m = m' := by
  rw [imm_eq_words m, imm_eq_words m', h, h, h, h]

theorem setImmWord_setImmWord_same (m : BitVec 128) (i : Fin 4) (d : HostWord) :
    setImmWord (setImmWord m i d) i d = setImmWord m i d := by
  refine eq_of_immWord_eq fun j => ?_
  rw [immWord_setImmWord, immWord_setImmWord]
  split <;> rfl

theorem setImmWord_zero (m : BitVec 128) (d : HostWord) :
    setImmWord m 0 d = m.extractLsb' 32 96 ++ d := by
  rw [← immWord_upper_three]
  rfl

theorem setImmWord_one (m : BitVec 128) (d : HostWord) :
    setImmWord m 1 d = m.extractLsb' 64 64 ++ d ++ m.extractLsb' 0 32 := by
  rw [← immWord_three_append_two]
  rfl

theorem setImmWord_two (m : BitVec 128) (d : HostWord) :
    setImmWord m 2 d = m.extractLsb' 96 32 ++ d ++ m.extractLsb' 0 64 := by
  rw [← immWord_one_append_zero]
  exact BitVec.append_assoc

theorem setImmWord_three (m : BitVec 128) (d : HostWord) :
    setImmWord m 3 d = d ++ m.extractLsb' 0 96 := by
  rw [← immWord_lower_three]
  calc d ++ immWord m 2 ++ immWord m 1 ++ immWord m 0
      = d ++ immWord m 2 ++ (immWord m 1 ++ immWord m 0) := BitVec.append_assoc
    _ = d ++ (immWord m 2 ++ (immWord m 1 ++ immWord m 0)) := BitVec.append_assoc
    _ = d ++ (immWord m 2 ++ immWord m 1 ++ immWord m 0) :=
      congrArg (d ++ ·) BitVec.append_assoc.symm

/-- The immediate operand is negative exactly when the top bit of IMM3 is set. -/
theorem immOperand_neg_iff (s : State) : s.immOperand < 0 ↔ (immWord s.imm 3).msb = true := by
  have hlt := s.imm.isLt
  have hword : (immWord s.imm 3).toNat = s.imm.toNat / 2 ^ 96 % 2 ^ 32 := by
    rw [immWord, BitVec.extractLsb'_toNat, Nat.shiftRight_eq_div_pow]
    rfl
  rw [State.immOperand, sext, BitVec.msb_eq_decide, decide_eq_true_eq, hword]
  split <;> omega

/-! ## The rows of the register map (20_memory.md R56) -/

theorem hostReg_txt {c : Config} {i : Nat} (hi : i < c.TCAP) :
    hostReg c (BitVec.ofNat 32 (0x100 + i)) = .txt i := by
  have hcap := c.TCAP_le
  refine (hostReg_eq_txt c _ i).mpr ⟨hi, ?_⟩
  rw [BitVec.toNat_ofNat, Nat.mod_eq_of_lt (by omega)]

theorem hostReg_unmapped {c : Config} {r : BitVec 32}
    (h : r = 0x003 ∨ (0x008 ≤ r.toNat ∧ r.toNat ≤ 0x0FF) ∨ 0x100 + c.TCAP ≤ r.toNat) :
    hostReg c r = .unmapped := by
  obtain rfl | h := h
  · rfl
  have hne : ∀ k : BitVec 32, k.toNat < 0x008 → ¬ r = k := by
    rintro k hk rfl
    omega
  simp only [hostReg]
  rw [if_neg (hne 0 (by decide)), if_neg (hne 1 (by decide)), if_neg (hne 2 (by decide)),
    if_neg (hne 4 (by decide)), if_neg (hne 5 (by decide)), if_neg (hne 6 (by decide)),
    if_neg (hne 7 (by decide)), if_neg (by omega)]

/-! ## A host read (20_memory.md R56) -/

theorem State.hostRead_tlen (s : State) : (s.hostRead 0x002).toNat = s.tlen.toNat :=
  BitVec.toNat_setWidth_of_le (by decide)

theorem State.hostRead_unmapped {s : State} {r : BitVec 32} (h : hostReg s.cfg r = .unmapped) :
    s.hostRead r = 0 := by
  simp only [State.hostRead, h]

theorem State.hostRead_txt {s : State} {i : Nat} (hi : i < s.cfg.TCAP) :
    (s.hostRead (BitVec.ofNat 32 (0x100 + i))).toNat = (s.txt.read i).toNat := by
  simp only [State.hostRead, hostReg_txt hi]
  exact BitVec.toNat_setWidth_of_le (by decide)

/-- A read is answered and changes nothing but the host's own lists. -/
theorem step_read {s : State} {r : BitVec 32} {rest : List HostAction} (h : s.pending = .read r :: rest) :
    step s = .next { s with pending := rest, returned := s.returned ++ [s.hostRead r] } :=
  step_pending s _ rest h

theorem State.after_two {s s' t : State} (h : step s = .next s') (h' : step s' = .next t) :
    State.after 2 s = some t := by
  simp only [State.after, h, h']

/-! ## A host write (20_memory.md R56, R57) -/

section
variable {s : State} {r : BitVec 32} {d : HostWord}

theorem State.hostWrite_fault (hf : s.status.fault = true) : s.hostWrite r d = .next s := by
  rw [State.hostWrite, if_pos hf]

theorem State.hostWrite_cmd (hf : s.status.fault = false) : s.hostWrite 0x000 d = s.writeCmd d := by
  simp only [State.hostWrite, hf, (hostReg_eq_cmd s.cfg 0).mpr rfl, Bool.false_eq_true, if_false]

theorem State.hostWrite_status (h : hostReg s.cfg r = .status) : s.hostWrite r d = .next s := by
  simp only [State.hostWrite, h, ite_self]

theorem State.hostWrite_unmapped (h : hostReg s.cfg r = .unmapped) : s.hostWrite r d = .next s := by
  simp only [State.hostWrite, h, ite_self]

theorem State.hostWrite_tlen (hf : s.status.fault = false) (h : hostReg s.cfg r = .tlen) :
    s.hostWrite r d = .next (s.setTlen (d.extractLsb' 0 16)) := by
  simp only [State.hostWrite, hf, h, Bool.false_eq_true, if_false]

theorem State.hostWrite_imm {i : Fin 4} {m : BitVec 128} (hf : s.status.fault = false)
    (h : hostReg s.cfg r = .imm i) (hm : setImmWord s.imm i d = m) :
    s.hostWrite r d = .next { s with imm := m } := by
  simp only [State.hostWrite, hf, h, hm, Bool.false_eq_true, if_false]

theorem State.hostWrite_txt {i : Nat} {x : Memory} (hf : s.status.fault = false)
    (h : hostReg s.cfg r = .txt i) (hx : s.txt.write i (d.extractLsb' 0 8) = x) :
    s.hostWrite r d = .next { s with txt := x } := by
  simp only [State.hostWrite, hf, h, hx, Bool.false_eq_true, if_false]

end

theorem step_write {s : State} {r : BitVec 32} {d : HostWord} {rest : List HostAction}
    (h : s.pending = .write r d :: rest) : step s = State.hostWrite { s with pending := rest } r d :=
  step_pending s _ rest h

/-- A byte written twice is a byte written once. -/
theorem Memory.write_write_same {m : Memory} (hm : m.wf = true) (i : Nat) (b : Byte) :
    (m.write i b).write i b = m.write i b := by
  have hw := Memory.write_wf m i b hm
  refine Memory.eq_of_read _ _ (Memory.write_wf _ i b hw) hw fun j => ?_
  by_cases hj : j = i
  · rw [hj, Memory.read_write_same _ i b hw, Memory.read_write_same m i b hm]
  · exact Memory.read_write_ne _ i j b hj

/-- The state with its TLEN, IMM, TXT and the actions still to come replaced: what a host write outside CMD
can reach. -/
def State.withData (s : State) (rest : List HostAction) (n : BitVec 16) (m : BitVec 128) (x : Memory) :
    State :=
  { s with pending := rest, tlen := n, imm := m, txt := x }

/-- Outside CMD a write stores data that the same write stores again, whatever the host does next. -/
theorem State.hostWrite_stores {s : State} {r : BitVec 32} (d : HostWord) (hr : r ≠ 0x000)
    (hw : s.txt.wf = true) : ∃ n m x, ∀ rest,
      State.hostWrite { s with pending := rest } r d = .next (s.withData rest n m x) ∧
      State.hostWrite (s.withData rest n m x) r d = .next (s.withData rest n m x) := by
  cases hf : s.status.fault with
  | true => exact ⟨_, _, _, fun rest => ⟨State.hostWrite_fault hf, State.hostWrite_fault hf⟩⟩
  | false =>
    cases h : hostReg s.cfg r with
    | cmd => exact absurd ((hostReg_eq_cmd s.cfg r).mp h) hr
    | status => exact ⟨_, _, _, fun rest => ⟨State.hostWrite_status h, State.hostWrite_status h⟩⟩
    | tlen => exact ⟨_, _, _, fun rest => ⟨State.hostWrite_tlen hf h, State.hostWrite_tlen hf h⟩⟩
    | imm i =>
      exact ⟨_, _, _, fun rest => ⟨State.hostWrite_imm hf h rfl,
        State.hostWrite_imm hf h (setImmWord_setImmWord_same s.imm i d)⟩⟩
    | txt i =>
      exact ⟨_, _, _, fun rest => ⟨State.hostWrite_txt hf h rfl,
        State.hostWrite_txt hf h (Memory.write_write_same hw i _)⟩⟩
    | unmapped => exact ⟨_, _, _, fun rest => ⟨State.hostWrite_unmapped h, State.hostWrite_unmapped h⟩⟩

/-! ## The bytes that FMT writes -/

theorem udivStep_rem_lt {c : Config} {n d : LimbVec} {k : Nat} {st : LimbVec × Nat}
    (h : st.2 < natOf c d) : (udivStep c n d k st).2 < natOf c d := by
  have hb := bitAt_lt_two c n k
  rw [udivStep]
  split <;> simp only <;> omega

/-- The remainder stays below the divisor, for every dividend and divisor. -/
theorem udivLoop_rem_lt {c : Config} {n d : LimbVec} : ∀ {k : Nat} {st : LimbVec × Nat},
    st.2 < natOf c d → (udivLoop c n d k st).2 < natOf c d
  | 0, _, h => h
  | k + 1, _, h => udivLoop_rem_lt (k := k) (udivStep_rem_lt h)

/-- The divisor of the digit loop is ten in every configuration. -/
theorem natOf_ten (c : Config) : natOf c (limbsOf c c.L 10) = 10 := by
  rw [natOf_limbsOf, Nat.mod_eq_of_lt]
  calc 10 < 2 ^ 4 := by decide
    _ ≤ 2 ^ (c.L * c.W) := Nat.pow_le_pow_right (by decide) (c.four_le_N.trans (N_le_bits c))

theorem udivmod_ten_rem_lt (c : Config) (m : LimbVec) :
    natOf c (udivmod c m (limbsOf c c.L 10)).2 < 10 := by
  have h := udivLoop_rem_lt (c := c) (n := m) (d := limbsOf c c.L 10) (k := c.N)
    (st := (limbsOf c c.L 0, 0)) (by simp [natOf_ten])
  rw [natOf_ten] at h
  simp only [udivmod]
  rw [natOf_limbsOf]
  exact (Nat.mod_le _ _).trans_lt h

theorem peelDigits_lt_ten (c : Config) : ∀ (fuel : Nat) (m : LimbVec) (digits : List Nat),
    (∀ t ∈ digits, t < 10) → ∀ t ∈ peelDigits c fuel m digits, t < 10
  | 0, _, _, h => h
  | fuel + 1, m, digits, h => by
    rw [peelDigits]
    split
    · exact h
    · exact peelDigits_lt_ten c fuel _ _ (List.forall_mem_cons.mpr ⟨udivmod_ten_rem_lt c m, h⟩)

theorem digitByte_ne_unlistedByte {t : Nat} (h : t < 10) : digitByte t ≠ unlistedByte := by
  revert t
  decide

/-- No byte of a text is `0x00`, whatever limb vector it is the text of. -/
theorem toText_ne_unlistedByte (c : Config) (x : LimbVec) : ∀ b ∈ toText c x, b ≠ unlistedByte := by
  have hdigits : ∀ b ∈ (peelDigits c (c.N + 1) (magnitude c x) []).map digitByte, b ≠ unlistedByte := by
    intro b hb
    obtain ⟨t, ht, rfl⟩ := List.mem_map.mp hb
    exact digitByte_ne_unlistedByte (peelDigits_lt_ten c _ _ [] (by simp) t ht)
  simp only [toText]
  split
  · simp [zeroByte, unlistedByte]
  · split
    · exact List.forall_mem_cons.mpr ⟨by decide, hdigits⟩
    · exact hdigits

/-! ## FMT and the text buffer -/

/-- A run of writes that does not fault ends at or below `TCAP`. -/
theorem State.writeText_fits : ∀ {bs : List Byte} {s t : State} {i : Nat}, s.writeText i bs = .ok t →
    i ≤ s.cfg.TCAP → i + bs.length ≤ s.cfg.TCAP
  | [], _, _, _, _, hi => hi
  | b :: bs, s, t, i, h, _ => by
    rw [State.writeText, State.memWrite] at h
    split at h
    · cases h
    next s' hs' =>
      split at hs'
      next hlt =>
        cases hs'
        have := State.writeText_fits h hlt
        simp only [List.length_cons] at this ⊢
        omega
      · cases hs'

/-- Everything a text result without a `0x00` does when it does not fault: TLEN and the bytes below it are the
text's, whatever stood there, and everything else is unchanged. -/
theorem State.writeTextResult_spec {s t : State} {out : List Byte} (hout : ∀ b ∈ out, b ≠ unlistedByte)
    (h : s.writeTextResult out = .ok t) :
    t = { s with txt := t.txt, tlen := BitVec.ofNat 16 out.length } ∧ out.length ≤ s.cfg.TCAP ∧
      (∀ i, out.length ≤ i → t.txt.read i = s.txt.read i) ∧
      ∀ i (hi : i < out.length), t.txt.read i = out[i] := by
  rw [State.writeTextResult] at h
  split at h
  · cases h
  next s' hw =>
    obtain ⟨hs', -, -, hrest, hbytes⟩ := State.writeText_spec out s s' 0 hw
    have hfits := State.writeText_fits hw (Nat.zero_le _)
    cases h
    refine ⟨by rw [hs']; rfl, by omega, fun i hi => hrest i (.inr (by omega)), fun i hi => ?_⟩
    have := hbytes (.inl hout) i hi
    rwa [Nat.zero_add] at this

/-- A text that fits is written. -/
theorem State.writeTextResult_ok {s : State} {out : List Byte} (h : out.length ≤ s.cfg.TCAP) :
    ∃ t, s.writeTextResult out = .ok t := by
  obtain ⟨t, ht⟩ := State.writeText_ok out s 0 (by omega)
  exact ⟨_, by rw [State.writeTextResult, ht]⟩

theorem exec_fmt_iff {s t : State} {va : Reg} : exec (.fmt va) s = .next t ↔
    s.writeTextResult (toText s.cfg (s.readV va)) = .ok t := by
  simp only [exec, execFmt]
  cases s.writeTextResult (toText s.cfg (s.readV va)) <;> simp

/-- FMT on another buffer and TLEN: it completes too, and its text is the same. -/
theorem exec_fmt_ignores_text {s t : State} {va : Reg} (h : exec (.fmt va) s = .next t) (m : Memory)
    (n : BitVec 16) : ∃ t', exec (.fmt va) { s with txt := m, tlen := n } = .next t' ∧
      t' = { t with txt := t'.txt } ∧
      ∀ i, i < (toText s.cfg (s.readV va)).length → t'.txt.read i = t.txt.read i := by
  have hout := toText_ne_unlistedByte s.cfg (s.readV va)
  obtain ⟨ht, hfits, -, hbytes⟩ := State.writeTextResult_spec hout (exec_fmt_iff.mp h)
  obtain ⟨t', h'⟩ := State.writeTextResult_ok (s := { s with txt := m, tlen := n }) hfits
  obtain ⟨ht', -, -, hbytes'⟩ := State.writeTextResult_spec hout h'
  refine ⟨t', exec_fmt_iff.mpr h', ?_, fun i hi => (hbytes' i hi).trans (hbytes i hi).symm⟩
  rw [ht', ht]

/-! ## PARSE and the text buffer -/

theorem execParse_beyond (s : State) (vd : Reg) (h : s.cfg.TCAP < s.tlen.toNat) :
    execParse vd s = .next (s.raiseFault .textLength) := by
  rw [execParse, if_pos h]

theorem State.text_congr {s : State} {m : Memory} (h : ∀ i, i < s.tlen.toNat → m.read i = s.txt.read i) :
    State.text { s with txt := m } = s.text :=
  List.map_congr_left fun i hi => h i (List.mem_range.mp hi)

theorem exec_parse_keeps_text {s t : State} {vd : Reg} (h : exec (.parse vd) s = .next t) :
    t.txt = s.txt ∧ t.tlen = s.tlen := by
  rw [exec_parse] at h
  obtain hfit | hlong := le_or_gt s.tlen.toNat s.cfg.TCAP
  · rw [execParse_of_fits s vd hfit] at h
    split at h <;> cases h <;> exact ⟨rfl, rfl⟩
  · rw [execParse_beyond s vd hlong] at h
    cases h
    exact ⟨rfl, rfl⟩

/-- PARSE reads no byte at or above TLEN. -/
theorem exec_parse_congr {s : State} (vd : Reg) {m : Memory}
    (h : ∀ i, i < s.tlen.toNat → m.read i = s.txt.read i) :
    exec (.parse vd) { s with txt := m } = mapNext (fun t => { t with txt := m }) (exec (.parse vd) s) := by
  rw [exec_parse, exec_parse]
  obtain hfit | hlong := le_or_gt s.tlen.toNat s.cfg.TCAP
  · rw [execParse_of_fits s vd hfit, execParse_of_fits { s with txt := m } vd hfit, State.text_congr h]
    cases fromText s.cfg s.text <;> rfl
  · rw [execParse_beyond s vd hlong, execParse_beyond { s with txt := m } vd hlong]
    rfl

/-- The buffer and TLEN, replaced by `m` and `n`, are untouched by every command but PARSE and FMT. -/
theorem untouched_text {i : Instr} (hparse : ∀ vd, i ≠ .parse vd) (hfmt : ∀ va, i ≠ .fmt va) (m : Memory)
    (n : BitVec 16) : Untouched i fun t => { t with txt := m, tlen := n } where
  cfg _ := rfl
  v _ := rfl
  writeV _ _ _ := rfl
  raiseFault _ _ := rfl
  setCmp _ _ _ _ _ := rfl
  imm _ _ _ := rfl
  tlen vd h := absurd h (hparse vd)
  txt h := h.elim (fun ⟨vd, h⟩ => absurd h (hparse vd)) fun ⟨va, h⟩ => absurd h (hfmt va)
  setPerr _ _ _ _ := rfl
  setTxt va h := absurd h (hfmt va)
  setTlen va h := absurd h (hfmt va)

/-! ## The obligations on the host register space and the text buffer -/

/-- Settles O8, row by row from what a read and a write do at each register. -/
theorem hostRegisterMap : Obligations.HostRegisterMap := by
  intro s hw
  constructor
  · exact ⟨rfl, rfl, s.hostRead_tlen, rfl, rfl, rfl, rfl, rfl,
      fun r hlo hhi => State.hostRead_unmapped (hostReg_unmapped (.inr (.inl ⟨hlo, hhi⟩))),
      fun i hi => State.hostRead_txt hi,
      fun r hr => State.hostRead_unmapped (hostReg_unmapped (.inr (.inr hr)))⟩
  · intro r d rest hf hp
    rw [step_write hp]
    refine ⟨?cmd, ?readOnly, ?tlen, ?imm0, ?imm1, ?imm2, ?imm3, ?txt⟩
    case cmd =>
      rintro rfl
      exact State.hostWrite_cmd hf
    case readOnly =>
      rintro (rfl | h)
      · exact State.hostWrite_status rfl
      · exact State.hostWrite_unmapped (hostReg_unmapped h)
    case tlen =>
      rintro rfl
      exact State.hostWrite_tlen hf rfl
    case imm0 =>
      rintro rfl
      exact State.hostWrite_imm hf rfl (setImmWord_zero s.imm d)
    case imm1 =>
      rintro rfl
      exact State.hostWrite_imm hf rfl (setImmWord_one s.imm d)
    case imm2 =>
      rintro rfl
      exact State.hostWrite_imm hf rfl (setImmWord_two s.imm d)
    case imm3 =>
      rintro rfl
      exact State.hostWrite_imm hf rfl (setImmWord_three s.imm d)
    case txt =>
      rintro i hi rfl
      exact ⟨_, State.hostWrite_txt hf (hostReg_txt hi) rfl, rfl, Memory.read_write_same _ _ _ hw,
        fun j hj => Memory.read_write_ne _ _ _ _ hj⟩

/-- Settles O11: a read keeps all that a read looks at, and a write outside CMD stores what it would store
again. -/
theorem readsHaveNoSideEffectsAndWritesRepeat : Obligations.ReadsHaveNoSideEffectsAndWritesRepeat := by
  intro s rest
  constructor
  · intro r hp
    have hsecond := step_read (s := { s with
      pending := .read r :: rest, returned := s.returned ++ [s.hostRead r] }) rfl
    rw [List.append_assoc] at hsecond
    exact State.after_two (step_read hp) hsecond
  · intro r d hr hw hp
    obtain ⟨n, m, x, h⟩ := State.hostWrite_stores d hr hw
    exact ⟨s.withData rest n m x, (step_write rfl).trans (h rest).1,
      State.after_two ((step_write hp).trans (h _).1) ((step_write rfl).trans (h rest).2), rfl, rfl⟩

/-- Settles O53: PARSE depends on the text alone, FMT writes bytes that stand whatever stood before, and the
text is untouched by the other commands. -/
theorem textIsReachedByParseAndFmtAlone : Obligations.TextIsReachedByParseAndFmtAlone := by
  refine ⟨fun s t vd h => exec_parse_keeps_text h, fun s vd m h => exec_parse_congr vd h, ?_,
    fun i s m n hparse hfmt => (untouched_text hparse hfmt m n).exec_eq_mapNext s⟩
  intro s t va h
  obtain ⟨ht, -, hrest, -⟩ :=
    State.writeTextResult_spec (toText_ne_unlistedByte s.cfg (s.readV va)) (exec_fmt_iff.mp h)
  exact ⟨by rw [ht], hrest, exec_fmt_ignores_text h⟩

/-- Settles O7, by the first branch of a host write and by a read being answered in either state. -/
theorem faultStateIgnoresWritesAndAnswersReads : Obligations.FaultStateIgnoresWritesAndAnswersReads :=
  fun _ _ hf => ⟨fun _ _ hp => (step_write hp).trans (State.hostWrite_fault hf), fun _ hp => step_read hp⟩

/-- Settles O10, by the words of IMM and the place of its top bit. -/
theorem immWordsAreLittleEndian : Obligations.ImmWordsAreLittleEndian :=
  ⟨immWord_setImmWord, fun s => imm_eq_words s.imm, immOperand_neg_iff⟩

end Sys2Proof.Machine
end

section
/-! SUPPORT. A masked command word field by field, what the decoder answers for each opcode, and the cause of a
command's fault (30_encoding.md R71, R72, R74, R75, R76, R79; 60_exceptions.md R202). -/

namespace Sys2Proof.Machine

/-! ## A word and its fields (30_encoding.md R71) -/

theorem eq_of_fields {w w' : HostWord} (hz : zField w = zField w') (hop : opField w = opField w')
    (hvd : vdField w = vdField w') (hva : vaField w = vaField w') (hvb : vbField w = vbField w')
    (hvr : vrField w = vrField w') : w = w' := by
  simp only [← BitVec.toNat_inj, Fin.ext_iff, opField_toNat, zField_toNat, vdField_val, vaField_val,
    vbField_val, vrField_val] at *
  omega

theorem and_eq_iff_fields {w m k : HostWord} : w &&& m = k ↔
    zField w &&& zField m = zField k ∧ opField w &&& opField m = opField k ∧
    vdField w &&& vdField m = vdField k ∧ vaField w &&& vaField m = vaField k ∧
    vbField w &&& vbField m = vbField k ∧ vrField w &&& vrField m = vrField k := by
  have hz : zField (w &&& m) = zField w &&& zField m := BitVec.extractLsb'_and
  have hop : opField (w &&& m) = opField w &&& opField m := BitVec.extractLsb'_and
  have hreg (i : Nat) : ((w &&& m).extractLsb' i 4).toFin =
      (w.extractLsb' i 4).toFin &&& (m.extractLsb' i 4).toFin := by
    rw [BitVec.extractLsb'_and, BitVec.toFin_and]
  constructor
  · rintro rfl
    exact ⟨hz.symm, hop.symm, (hreg 8).symm, (hreg 12).symm, (hreg 16).symm, (hreg 20).symm⟩
  · rintro ⟨hz', hop', hvd, hva, hvb, hvr⟩
    exact eq_of_fields (hz.trans hz') (hop.trans hop') ((hreg 8).trans hvd) ((hreg 12).trans hva)
      ((hreg 16).trans hvb) ((hreg 20).trans hvr)

/-! ## The masks of the opcode map (30_encoding.md R72) -/

/-- The four bits of a row's mask at a register field: ones where the row fixes the field to zero. -/
def maskField (fixed : Bool) : Reg := if fixed then 15 else 0

/-- The mask of a row of R72, by which register fields the row fixes to zero; `op` and `z` are fixed in every
row. -/
def rowMask (vd va vb vr : Bool) : HostWord :=
  0xFF000000 ||| commandWord 0xFF (maskField vd) (maskField va) (maskField vb) (maskField vr)

theorem rowMask_fields : ∀ vd va vb vr : Bool,
    zField (rowMask vd va vb vr) = BitVec.allOnes 8 ∧ opField (rowMask vd va vb vr) = BitVec.allOnes 8 ∧
    vdField (rowMask vd va vb vr) = maskField vd ∧ vaField (rowMask vd va vb vr) = maskField va ∧
    vbField (rowMask vd va vb vr) = maskField vb ∧ vrField (rowMask vd va vb vr) = maskField vr := by
  decide

theorem and_maskField_eq_zero_iff : ∀ (r : Reg) (fixed : Bool),
    r &&& maskField fixed = 0 ↔ (fixed = true → r = 0) := by
  decide

/-- A word meets a row's match and mask exactly when its `z` is zero, its opcode is the row's, and the register
fields that the row fixes are zero. -/
theorem and_rowMask_eq_iff (w : HostWord) (vd va vb vr : Bool) {op : Nat} (h : op < 256) :
    w &&& rowMask vd va vb vr = commandWord op 0 0 0 0 ↔
      zField w = 0 ∧ (opField w).toNat = op ∧ (vd = true → vdField w = 0) ∧ (va = true → vaField w = 0) ∧
      (vb = true → vbField w = 0) ∧ (vr = true → vrField w = 0) := by
  obtain ⟨hz, hop, hvd, hva, hvb, hvr⟩ := rowMask_fields vd va vb vr
  obtain ⟨hop', hz'⟩ := commandWord_op_z op 0 0 0 0 h
  obtain ⟨hvd', hva', hvb', hvr'⟩ := commandWord_regs op 0 0 0 0 h
  rw [and_eq_iff_fields, hz, hop, hvd, hva, hvb, hvr, hz', hvd', hva', hvb', hvr', BitVec.and_allOnes,
    BitVec.and_allOnes, ← BitVec.toNat_inj (x := opField w), hop']
  simp only [and_maskField_eq_zero_iff]

/-! ## What the decoder answers (30_encoding.md R79) -/

theorem decode_of_zField_ne {w : HostWord} (hz : zField w ≠ 0) : decode w = .error .mustBeZero := by
  simp only [decode, if_pos hz]

section
variable {w : HostWord} (hz : zField w = 0)
include hz

theorem decode_unknown (hop : (opField w).toNat = 0x00 ∨ 0x0A ≤ (opField w).toNat) :
    decode w = .error .unknownOpcode := by
  rw [decode, if_neg (not_not.mpr hz)]
  split
  case h_10 => rfl
  all_goals omega

theorem decode_cmp (hop : (opField w).toNat = 0x01) : decode w =
    if vdField w ≠ 0 ∨ vrField w ≠ 0 then .error .unusedField else .ok (.cmp (vaField w) (vbField w)) := by
  simp only [decode, hz, hop, ne_eq, not_true_eq_false, if_false]

theorem decode_add (hop : (opField w).toNat = 0x02) : decode w =
    if vrField w ≠ 0 then .error .unusedField else .ok (.add (vdField w) (vaField w) (vbField w)) := by
  simp only [decode, hz, hop, ne_eq, not_true_eq_false, if_false]

theorem decode_neg (hop : (opField w).toNat = 0x03) : decode w =
    if vbField w ≠ 0 ∨ vrField w ≠ 0 then .error .unusedField else .ok (.neg (vdField w) (vaField w)) := by
  simp only [decode, hz, hop, ne_eq, not_true_eq_false, if_false]

theorem decode_sub (hop : (opField w).toNat = 0x04) : decode w =
    if vrField w ≠ 0 then .error .unusedField else .ok (.sub (vdField w) (vaField w) (vbField w)) := by
  simp only [decode, hz, hop, ne_eq, not_true_eq_false, if_false]

theorem decode_mul (hop : (opField w).toNat = 0x05) : decode w =
    if vrField w ≠ 0 then .error .unusedField else .ok (.mul (vdField w) (vaField w) (vbField w)) := by
  simp only [decode, hz, hop, ne_eq, not_true_eq_false, if_false]

theorem decode_divmod (hop : (opField w).toNat = 0x06) : decode w =
    if vdField w = vrField w then .error .sameDestination
    else .ok (.divmod (vdField w) (vrField w) (vaField w) (vbField w)) := by
  simp only [decode, hz, hop, ne_eq, not_true_eq_false, if_false]

theorem decode_ldi (hop : (opField w).toNat = 0x07) : decode w =
    if vaField w ≠ 0 ∨ vbField w ≠ 0 ∨ vrField w ≠ 0 then .error .unusedField
    else .ok (.ldi (vdField w)) := by
  simp only [decode, hz, hop, ne_eq, not_true_eq_false, if_false]

theorem decode_parse (hop : (opField w).toNat = 0x08) : decode w =
    if vaField w ≠ 0 ∨ vbField w ≠ 0 ∨ vrField w ≠ 0 then .error .unusedField
    else .ok (.parse (vdField w)) := by
  simp only [decode, hz, hop, ne_eq, not_true_eq_false, if_false]

theorem decode_fmt (hop : (opField w).toNat = 0x09) : decode w =
    if vdField w ≠ 0 ∨ vbField w ≠ 0 ∨ vrField w ≠ 0 then .error .unusedField
    else .ok (.fmt (vaField w)) := by
  simp only [decode, hz, hop, ne_eq, not_true_eq_false, if_false]

end

/-- What an answer of the decoder says of the word: a refused word is illegal by R74, R75 or R76; a command
comes from a legal word of its own opcode, and it is well formed. -/
def AnswerFits (w : HostWord) : Except DecodeError Instr → Prop
  | .error _ => IllegalWord w
  | .ok i => ¬ IllegalWord w ∧ zField w = 0 ∧ (opField w).toNat = opcode i ∧ i.wellFormed = true

/-- One row of the decoder: it is enough that the row's own check decides whether the word is illegal. -/
theorem AnswerFits.row {w : HostWord} {i : Instr} {e : DecodeError} {p : Prop} [Decidable p]
    (hz : zField w = 0) (hop : (opField w).toNat = opcode i) (hp : IllegalWord w ↔ p)
    (hi : ¬ p → i.wellFormed = true) : AnswerFits w (if p then .error e else .ok i) := by
  split
  next h => exact hp.mpr h
  next h => exact ⟨mt hp.mp h, hz, hop, hi h⟩

theorem decode_fits (w : HostWord) : AnswerFits w (decode w) := by
  by_cases hz : zField w = 0
  case neg =>
    rw [decode_of_zField_ne hz]
    exact .inl hz
  match hop : (opField w).toNat with
  | 0 =>
    rw [decode_unknown hz (.inl hop)]
    exact .inr (.inl (.inl hop))
  | 1 =>
    rw [decode_cmp hz hop]
    exact .row hz hop (by simp [IllegalWord, hz, hop]) fun _ => rfl
  | 2 =>
    rw [decode_add hz hop]
    exact .row hz hop (by simp [IllegalWord, hz, hop]) fun _ => rfl
  | 3 =>
    rw [decode_neg hz hop]
    exact .row hz hop (by simp [IllegalWord, hz, hop]) fun _ => rfl
  | 4 =>
    rw [decode_sub hz hop]
    exact .row hz hop (by simp [IllegalWord, hz, hop]) fun _ => rfl
  | 5 =>
    rw [decode_mul hz hop]
    exact .row hz hop (by simp [IllegalWord, hz, hop]) fun _ => rfl
  | 6 =>
    rw [decode_divmod hz hop]
    exact .row hz hop (by simp [IllegalWord, hz, hop]) bne_iff_ne.mpr
  | 7 =>
    rw [decode_ldi hz hop]
    exact .row hz hop (by simp [IllegalWord, hz, hop]) fun _ => rfl
  | 8 =>
    rw [decode_parse hz hop]
    exact .row hz hop (by simp [IllegalWord, hz, hop]) fun _ => rfl
  | 9 =>
    rw [decode_fmt hz hop]
    exact .row hz hop (by simp [IllegalWord, hz, hop]) fun _ => rfl
  | n + 10 =>
    have hlarge : 0x0A ≤ (opField w).toNat := by omega
    rw [decode_unknown hz (.inr hlarge)]
    exact .inr (.inl (.inr hlarge))

theorem decode_ok_fits {w : HostWord} {i : Instr} (h : decode w = .ok i) :
    ¬ IllegalWord w ∧ zField w = 0 ∧ (opField w).toNat = opcode i ∧ i.wellFormed = true := by
  have hfits := decode_fits w
  rwa [h] at hfits

theorem decode_of_illegal {w : HostWord} (hw : IllegalWord w) : ∃ e, decode w = .error e := by
  cases h : decode w with
  | error e => exact ⟨e, rfl⟩
  | ok i => exact absurd hw (decode_ok_fits h).1

theorem decode_of_legal {w : HostWord} (hw : ¬ IllegalWord w) :
    ∃ i, decode w = .ok i ∧ i.wellFormed = true := by
  cases h : decode w with
  | error e =>
    have hfits := decode_fits w
    rw [h] at hfits
    exact absurd hfits hw
  | ok i =>
    obtain ⟨-, -, -, hi⟩ := decode_ok_fits h
    exact ⟨i, rfl, hi⟩

section
variable {w : HostWord} {i : Instr} {e : DecodeError} {p : Prop} [Decidable p]
  (hrow : zField w = 0 → (opField w).toNat = opcode i → decode w = if p then .error e else .ok i)
include hrow

/-- A row's command is decoded exactly from the words of its opcode with a zero `z` that pass its check. -/
theorem decode_eq_ok_iff : decode w = .ok i ↔ zField w = 0 ∧ (opField w).toNat = opcode i ∧ ¬ p := by
  constructor
  · intro h
    obtain ⟨-, hz, hop, -⟩ := decode_ok_fits h
    refine ⟨hz, hop, fun hp => ?_⟩
    rw [hrow hz hop, if_pos hp] at h
    cases h
  · rintro ⟨hz, hop, hp⟩
    rw [hrow hz hop, if_neg hp]

/-- A row whose check is that the register fields it fixes are zero is the row of its match and mask. -/
theorem decode_eq_ok_iff_and_rowMask (vd va vb vr : Bool)
    (hp : ¬ p ↔ (vd = true → vdField w = 0) ∧ (va = true → vaField w = 0) ∧ (vb = true → vbField w = 0) ∧
      (vr = true → vrField w = 0)) :
    decode w = .ok i ↔ w &&& rowMask vd va vb vr = commandWord (opcode i) 0 0 0 0 := by
  have hop : opcode i < 256 := by cases i <;> simp [opcode]
  rw [decode_eq_ok_iff hrow, hp, and_rowMask_eq_iff w vd va vb vr hop]

end

/-! ## An illegal word and the cause of a command's fault (60_exceptions.md R202) -/

theorem State.writeCmd_of_error {s : State} {w : HostWord} {e : DecodeError} (h : decode w = .error e) :
    s.writeCmd w = .next (s.raiseFault .illegalCommand) := by
  rw [State.writeCmd, h]

theorem divmod_error {c : Config} {a b : LimbVec} {e : Cause} (h : divmod c a b = .error e) :
    e = .divisionByZero := by
  simp only [divmod] at h
  split at h
  · cases h; rfl
  · cases h

/-- A command keeps FAULT, or it is a DIVMOD or a PARSE that takes its own fault. -/
theorem exec_fault_cases {i : Instr} {s t : State} (h : exec i s = .next t) :
    t.status.fault = s.status.fault ∨
    (∃ vq va vb, i = .divmod vq vq va vb) ∧ t = s.raiseFault .illegalCommand ∨
    (∃ vq vr va vb, i = .divmod vq vr va vb) ∧ t = s.raiseFault .divisionByZero ∨
    (∃ vd, i = .parse vd) ∧ t = s.raiseFault .textLength := by
  cases i with
  | cmp va vb => cases h; exact .inl rfl
  | add vd va vb => cases h; exact .inl rfl
  | neg vd va => cases h; exact .inl rfl
  | sub vd va vb => cases h; exact .inl rfl
  | mul vd va vb => cases h; exact .inl rfl
  | divmod vq vr va vb =>
    simp only [exec, execDivmod] at h
    split at h
    next heq => cases h; subst heq; exact .inr (.inl ⟨⟨vq, va, vb, rfl⟩, rfl⟩)
    · split at h
      next e he => cases h; cases divmod_error he; exact .inr (.inr (.inl ⟨⟨vq, vr, va, vb, rfl⟩, rfl⟩))
      · cases h; exact .inl rfl
  | ldi vd => cases h; exact .inl rfl
  | parse vd =>
    simp only [exec, execParse] at h
    split at h
    · cases h; exact .inr (.inr (.inr ⟨⟨vd, rfl⟩, rfl⟩))
    · split at h
      · cases h
      · split at h <;> cases h <;> exact .inl rfl
  | fmt va =>
    exact .inl (congrArg Status.fault (State.writeTextResult_status (exec_fmt_iff.mp h)))

theorem exec_fcause_ne_illegalCommand {i : Instr} {s t : State} (hi : i.wellFormed = true)
    (hs : s.status.fault = false) (h : exec i s = .next t) (ht : t.status.fault = true) :
    t.status.fcause ≠ 2 := by
  obtain hf | ⟨⟨vq, va, vb, rfl⟩, -⟩ | ⟨-, rfl⟩ | ⟨-, rfl⟩ := exec_fault_cases h
  · exact absurd (hf.symm.trans ht) (by simp [hs])
  · exact absurd rfl (bne_iff_ne.mp hi)
  · simp [Cause.code]
  · simp [Cause.code]

/-! ## The obligations on the encoding -/

/-- Settles O3, row by row: the row's check, its match and mask, and the opcode that a decoded command has. -/
theorem opcodeMapByMatchAndMask : Obligations.OpcodeMapByMatchAndMask := by
  intro w
  refine ⟨?cmp, ?add, ?neg, ?sub, ?mul, ?divmod, ?ldi, ?parse, ?fmt⟩
  case cmp => exact decode_eq_ok_iff_and_rowMask decode_cmp true false false true (by simp)
  case add => exact decode_eq_ok_iff_and_rowMask decode_add false false false true (by simp)
  case neg => exact decode_eq_ok_iff_and_rowMask decode_neg false false true true (by simp)
  case sub => exact decode_eq_ok_iff_and_rowMask decode_sub false false false true (by simp)
  case mul => exact decode_eq_ok_iff_and_rowMask decode_mul false false false true (by simp)
  case divmod =>
    have hmask : w &&& 0xFF0000FF = 0x00000006 ↔ zField w = 0 ∧ (opField w).toNat = 0x06 :=
      (and_rowMask_eq_iff w false false false false (by decide)).trans (by simp)
    rw [decode_eq_ok_iff decode_divmod, hmask, and_assoc]
    rfl
  case ldi => exact decode_eq_ok_iff_and_rowMask decode_ldi false true true true (by simp)
  case parse => exact decode_eq_ok_iff_and_rowMask decode_parse false true true true (by simp)
  case fmt => exact decode_eq_ok_iff_and_rowMask decode_fmt true false true true (by simp)

/-- Settles O5: the decoder refuses exactly the illegal words, and a DIVMOD or PARSE of a legal word takes another
cause. -/
theorem illegalWordTakesIllegalCommand : Obligations.IllegalWordTakesIllegalCommand := by
  intro s w rest hf hp
  refine ⟨fun hw => ?_, decode_of_legal, fun i t hi h ht => exec_fcause_ne_illegalCommand hi hf h ht⟩
  obtain ⟨e, he⟩ := decode_of_illegal hw
  calc step s
    _ = State.hostWrite { s with pending := rest } 0x000 w := step_write hp
    _ = State.writeCmd { s with pending := rest } w := State.hostWrite_cmd hf
    _ = .next (State.raiseFault { s with pending := rest } .illegalCommand) := State.writeCmd_of_error he

end Sys2Proof.Machine
end

section
/-! SUPPORT. The bits below `N` and the integer as functions of `u_N`, and `norm_N` and `zpad_N` bit by bit, as
numbers and as what `wrap_N` is made of (00_scope.md R12, R13, 40_storage_sign.md R92). -/

namespace Sys2Proof.Machine

variable (c : Config)

/-! ## What `u_N` decides (00_scope.md R12) -/

theorem uN_lt (x : LimbVec) : uN c x < 2 ^ c.N := Nat.mod_lt _ (Nat.two_pow_pos _)

theorem two_pow_N_le : 2 ^ c.N ≤ 2 ^ (c.L * c.W) := Nat.pow_le_pow_right (by decide) (N_le_bits c)

theorem two_pow_N_eq : 2 ^ c.N = 2 * 2 ^ (c.N - 1) := by
  have := c.four_le_N
  rw [← pow_succ']
  congr 1
  omega

/-- A bit below `N` is a bit of `u_N(x)`. -/
theorem bitAt_eq_uN (x : LimbVec) {k : Nat} (hx : LimbsOk c x) (hk : k < c.N) :
    bitAt c x k = uN c x / 2 ^ k % 2 := by
  have hdvd : 2 ^ (k + 1) ∣ 2 ^ c.N := pow_dvd_pow 2 hk
  rw [bitAt_eq c x k hx, uN, ← Nat.mod_mul_right_div_self, ← Nat.mod_mul_right_div_self, ← pow_succ,
    Nat.mod_mod_of_dvd _ hdvd]

/-- Bit `N-1` is set exactly when `u_N(x)` is in the upper half of its range. -/
theorem bitAt_sign (x : LimbVec) (hx : LimbsOk c x) :
    bitAt c x (c.N - 1) = if uN c x < 2 ^ (c.N - 1) then 0 else 1 := by
  have hN := c.four_le_N
  have hu := uN_lt c x
  rw [two_pow_N_eq] at hu
  rw [bitAt_eq_uN c x hx (by omega)]
  split
  next hlow => rw [Nat.div_eq_of_lt hlow]
  next hhigh => rw [Nat.div_eq_of_lt_le (k := 1) (by omega) (by omega)]

theorem sval_congr {x y : LimbVec} (hx : LimbsOk c x) (hy : LimbsOk c y) (h : uN c x = uN c y) :
    sval c x = sval c y := by
  rw [sval, sval, bitAt_sign c x hx, bitAt_sign c y hy, h]

theorem uN_limbsOf (n : Nat) : uN c (limbsOf c c.L n) = n % 2 ^ c.N := by
  rw [uN, natOf_limbsOf, Nat.mod_mod_of_dvd _ (pow_dvd_pow 2 (N_le_bits c))]

/-! ## `norm_N` and `zpad_N` of a limb vector of length `L` (40_storage_sign.md R92) -/

/-- The pad bits of a canonical Value are its bit `N-1` (40_storage_sign.md R91). -/
theorem canonical_padBit {x : LimbVec} {k : Nat} (h : canonical c x = true) (hN : c.N ≤ k)
    (hk : k < c.L * c.W) : bitAt c x k = bitAt c x (c.N - 1) := by
  rw [canonical, Bool.and_eq_true, List.all_eq_true] at h
  obtain ⟨-, hpads⟩ := h
  have hmem : k ∈ padBits c := by rw [padBits, List.mem_range'_1, N_add_P]; exact ⟨hN, hk⟩
  exact beq_iff_eq.mp (hpads k hmem)

theorem normN_of_P_eq_zero (x : LimbVec) (hP : c.P = 0) : normN c x = x := by
  simp [normN, padBits, hP]

theorem zpadN_of_P_eq_zero (x : LimbVec) (hP : c.P = 0) : zpadN c x = x := by
  simp [zpadN, padBits, hP]

section
variable (x : LimbVec) (h : isLimbVec c x = true)
include h

theorem natOf_zpadN : natOf c (zpadN c x) = uN c x := by
  rw [zpadN, (setPads c 0 (by decide) x h).2, Nat.zero_mul, Nat.add_zero]

theorem uN_zpadN : uN c (zpadN c x) = uN c x := by
  rw [uN, natOf_zpadN c x h, Nat.mod_eq_of_lt (uN_lt c x)]

theorem uN_normN : uN c (normN c x) = uN c x := by
  have hdvd : 2 ^ c.N ∣ bitAt c x (c.N - 1) * (2 ^ (c.L * c.W) - 2 ^ c.N) :=
    (Nat.dvd_sub (pow_dvd_pow 2 (N_le_bits c)) dvd_rfl).mul_left _
  rw [uN, natOf_normN c x h, Nat.add_mod, Nat.mod_eq_zero_of_dvd hdvd, Nat.add_zero, Nat.mod_mod,
    Nat.mod_eq_of_lt (uN_lt c x)]

theorem sval_normN : sval c (normN c x) = sval c x :=
  sval_congr c ((isLimbVec_iff c _).mp (normN_isLimbVec c x h)).2 ((isLimbVec_iff c x).mp h).2
    (uN_normN c x h)

/-- Bits below `N` stand; the pad bits of a canonical Value all equal bit `N-1`. -/
theorem bitAt_normN {k : Nat} (hk : k < c.L * c.W) :
    bitAt c (normN c x) k = if k < c.N then bitAt c x k else bitAt c x (c.N - 1) := by
  have hx := ((isLimbVec_iff c x).mp h).2
  have hn := ((isLimbVec_iff c _).mp (normN_isLimbVec c x h)).2
  have hbelow {j : Nat} (hj : j < c.N) : bitAt c (normN c x) j = bitAt c x j := by
    rw [bitAt_eq_uN c _ hn hj, bitAt_eq_uN c x hx hj, uN_normN c x h]
  split
  next hlt => exact hbelow hlt
  next hge =>
    have hN := c.four_le_N
    have hpad := canonical_padBit c (normN_canonical c x h) (Nat.not_lt.mp hge) hk
    rw [hpad, hbelow (by omega)]

/-- Bits below `N` stand; the pad bits lie above the number `u_N(x)`. -/
theorem bitAt_zpadN (k : Nat) :
    bitAt c (zpadN c x) k = if k < c.N then bitAt c x k else 0 := by
  have hx := ((isLimbVec_iff c x).mp h).2
  have hz := ((isLimbVec_iff c _).mp (zpadN_isLimbVec c x h)).2
  split
  next hlt => rw [bitAt_eq_uN c _ hz hlt, bitAt_eq_uN c x hx hlt, uN_zpadN c x h]
  next hge =>
    have hlt : uN c x < 2 ^ k := (uN_lt c x).trans_le (Nat.pow_le_pow_right (by decide) (by omega))
    rw [bitAt_eq c _ k hz, natOf_zpadN c x h, Nat.div_eq_of_lt hlt]

end

/-! ## `wrap_N` as a normal form (00_scope.md R13, 40_storage_sign.md R92) -/

/-- The number of the normal form of an `N`-bit number, by the two cases of R13. -/
theorem natOf_normN_limbsOf {u : Nat} (hu : u < 2 ^ c.N) : natOf c (normN c (limbsOf c c.L u)) =
    if u < 2 ^ (c.N - 1) then u else u + 2 ^ (c.L * c.W) - 2 ^ c.N := by
  have hle := two_pow_N_le c
  rw [natOf_normN c _ (limbsOf_isLimbVec c u), bitAt_sign c _ (limbsOf_ok c _ u), uN_limbsOf,
    Nat.mod_eq_of_lt hu]
  split <;> omega

theorem wrapN_eq_normN (z : Int) : wrapN c z = normN c (limbsOf c c.L (z % 2 ^ c.N).toNat) := by
  have hpos : (0 : Int) < 2 ^ c.N := by positivity
  have hu : (z % 2 ^ c.N).toNat < 2 ^ c.N := by
    have hlt := Int.emod_lt_of_pos z hpos
    zify
    rwa [Int.toNat_of_nonneg (Int.emod_nonneg z hpos.ne')]
  obtain ⟨hlen, hok⟩ := (isLimbVec_iff c _).mp
    (normN_isLimbVec c _ (limbsOf_isLimbVec c (z % 2 ^ c.N).toNat))
  rw [← limbsOf_natOf c _ hok, hlen, natOf_normN_limbsOf c hu, apply_ite (limbsOf c c.L), wrapN]

/-! ## The obligation on `norm_N` and `zpad_N` -/

/-- Settles O27: bits below `N` are those of `u_N`, which both functions keep, and `wrap_N` is the normal form of
its `N`-bit number. -/
theorem normAndZpadSetThePadBits : Obligations.NormAndZpadSetThePadBits := fun c x h =>
  ⟨fun k hk => ⟨bitAt_normN c x h hk, bitAt_zpadN c x h k⟩, normN_canonical c x h, sval_normN c x h,
    natOf_zpadN c x h, fun hP => ⟨normN_of_P_eq_zero c x hP, zpadN_of_P_eq_zero c x hP⟩, wrapN_eq_normN c⟩

end Sys2Proof.Machine
end

section
/-! SUPPORT. The comparison of limb vectors limb by limb, and its agreement with the order of the numbers
(41_comparator.md R113). -/

namespace Sys2Proof.Machine

/-! ## The order of two integers -/

theorem orderOf_of_lt {a b : Int} (h : a < b) : orderOf a b = .less := if_pos h

theorem orderOf_of_gt {a b : Int} (h : b < a) : orderOf a b = .greater := by
  rw [orderOf, if_neg h.not_gt, if_neg h.ne']

/-- The high parts decide the order of two numbers, and the low digits decide between equal high parts. -/
theorem orderOf_low_add_high {B l m a b : Nat} (hl : l < B) (hm : m < B) :
    orderOf ↑(l + B * a) ↑(m + B * b) = if orderOf a b = .equal then orderOf l m else orderOf a b := by
  obtain hlt | rfl | hgt := lt_trichotomy a b
  · have hB : B * a + B ≤ B * b := Nat.mul_le_mul_left B hlt
    have hsum : l + B * a < m + B * b := by omega
    rw [orderOf_of_lt (Int.ofNat_lt.mpr hlt), orderOf_of_lt (Int.ofNat_lt.mpr hsum)]
    rfl
  · simp [orderOf]
  · have hB : B * b + B ≤ B * a := Nat.mul_le_mul_left B hgt
    have hsum : m + B * b < l + B * a := by omega
    rw [orderOf_of_gt (Int.ofNat_lt.mpr hgt), orderOf_of_gt (Int.ofNat_lt.mpr hsum)]
    rfl

/-! ## The loop over the limbs (41_comparator.md R113) -/

theorem compareLimbs_singleton (l m : Nat) : compareLimbs [l] [m] = orderOf l m := by
  obtain hlt | rfl | hgt := lt_trichotomy l m
  · rw [orderOf_of_lt (Int.ofNat_lt.mpr hlt), compareLimbs, if_pos hlt]
  · simp [compareLimbs, orderOf]
  · rw [orderOf_of_gt (Int.ofNat_lt.mpr hgt), compareLimbs, if_neg hgt.not_gt, if_pos hgt]

/-- The loop reaches later limbs only when it finds the earlier ones equal. -/
theorem compareLimbs_append (xs' ys' : LimbVec) : ∀ xs ys : LimbVec, xs.length = ys.length →
    compareLimbs (xs ++ xs') (ys ++ ys') =
      if compareLimbs xs ys = .equal then compareLimbs xs' ys' else compareLimbs xs ys
  | [], [], _ => by simp [compareLimbs]
  | l :: xs, m :: ys, h => by
    have ih := compareLimbs_append xs' ys' xs ys (Nat.succ.inj h)
    simp only [List.cons_append, compareLimbs, ih]
    split
    · rfl
    · split <;> rfl

/-- The lowest limbs decide only between vectors whose higher limbs are equal. -/
theorem ucompare_cons (l m : Nat) {x y : LimbVec} (h : x.length = y.length) :
    ucompare (l :: x) (m :: y) = if ucompare x y = .equal then orderOf l m else ucompare x y := by
  rw [ucompare, List.reverse_cons, List.reverse_cons, compareLimbs_append _ _ _ _ (by simpa using h),
    compareLimbs_singleton, ucompare]

theorem ucompare_eq_orderOf (c : Config) : ∀ x y : LimbVec, LimbsOk c x → LimbsOk c y →
    x.length = y.length → ucompare x y = orderOf (natOf c x) (natOf c y)
  | [], [], _, _, _ => rfl
  | l :: x, m :: y, hx, hy, h => by
    have hlen : x.length = y.length := Nat.succ.inj h
    obtain ⟨hl, hx⟩ := List.forall_mem_cons.mp hx
    obtain ⟨hm, hy⟩ := List.forall_mem_cons.mp hy
    rw [ucompare_cons l m hlen, ucompare_eq_orderOf c x y hx hy hlen, natOf, natOf,
      orderOf_low_add_high hl hm]

/-! ## The obligation on the unsigned comparison -/

/-- Settles O31, by induction on the limbs from the lowest: the higher limbs decide unless they are equal. -/
theorem unsignedComparisonOrdersNumbers : Obligations.UnsignedComparisonOrdersNumbers := by
  intro c x y hx hy
  obtain ⟨hxlen, hxok⟩ := (isLimbVec_iff c x).mp hx
  obtain ⟨hylen, hyok⟩ := (isLimbVec_iff c y).mp hy
  exact ucompare_eq_orderOf c x y hxok hyok (hxlen.trans hylen.symm)

end Sys2Proof.Machine
end

section
/-! SUPPORT. The integer of a Value and of the results of `add`, `from_magnitude_and_sign` and `mul` modulo `2^N`,
and sign and magnitude of a canonical Value (00_scope.md R12, 40_storage_sign.md R94 to R96, 42_additive.md R122,
43_multiplicative.md R141). -/

namespace Sys2Proof.Machine

/-! ## Sign and magnitude of an integer -/

/-- The integer of magnitude `n`, negative if `neg`. -/
def signed (neg : Bool) (n : Nat) : Int := if neg then -n else n

@[simp] theorem natAbs_signed (neg : Bool) (n : Nat) : (signed neg n).natAbs = n := by
  cases neg <;> simp [signed]

theorem signed_natAbs (z : Int) : signed (decide (z < 0)) z.natAbs = z := by
  simp only [signed, decide_eq_true_iff]
  split <;> omega

theorem signed_add (neg : Bool) (m n : Nat) : signed neg m + signed neg n = signed neg (m + n) := by
  cases neg <;> simp [signed, add_comm]

/-- Signs multiply by XOR. -/
theorem signed_mul (p q : Bool) (m n : Nat) : signed p m * signed q n = signed (p != q) (m * n) := by
  cases p <;> cases q <;> simp [signed]

theorem signed_lt_zero_iff {neg : Bool} {n : Nat} (h : signed neg n ≠ 0) : signed neg n < 0 ↔ neg = true := by
  cases neg <;> simp [signed] at h ⊢; omega

variable (c : Config)

/-! ## The integer of a Value (00_scope.md R12) -/

theorem minInt_eq : minInt c = -((2 ^ (c.N - 1) : Nat) : Int) := by simp [minInt]

theorem maxInt_eq : maxInt c = ((2 ^ (c.N - 1) : Nat) : Int) - 1 := by simp [maxInt]

/-- R12 with the case decided by `u_N`. -/
theorem sval_eq_of_uN (x : LimbVec) (hx : LimbsOk c x) :
    sval c x = if uN c x < 2 ^ (c.N - 1) then (uN c x : Int) else (uN c x : Int) - (2 ^ c.N : Nat) := by
  rw [sval, bitAt_sign c x hx]
  push_cast
  split <;> rfl

theorem sval_bounds (x : LimbVec) (hx : LimbsOk c x) : minInt c ≤ sval c x ∧ sval c x ≤ maxInt c := by
  have hu := uN_lt c x
  have hN := two_pow_N_eq c
  rw [sval_eq_of_uN c x hx, minInt_eq, maxInt_eq]
  split <;> omega

/-- A number and the integer of its low `N` bits agree modulo `2^N`. -/
theorem natOf_modEq_sval (x : LimbVec) : natOf c x ≡ sval c x [ZMOD 2 ^ c.N] := by
  have huN : (uN c x : Int) ≡ natOf c x [ZMOD 2 ^ c.N] := by
    rw [uN]; push_cast; exact Int.mod_modEq _ _
  rw [sval]
  split
  · exact huN.symm
  · simpa using huN.symm.sub Int.modulus_modEq_zero.symm

/-- The range of R12 holds one integer of each residue. -/
theorem sval_eq_of_modEq {x : LimbVec} {z : Int} (hx : LimbsOk c x) (h : sval c x ≡ z [ZMOD 2 ^ c.N])
    (hmin : minInt c ≤ z) (hmax : z ≤ maxInt c) : sval c x = z := by
  obtain ⟨hxmin, hxmax⟩ := sval_bounds c x hx
  have hN : (2 ^ c.N : Int) = 2 * 2 ^ (c.N - 1) := by exact_mod_cast two_pow_N_eq c
  rw [minInt] at hmin hxmin
  rw [maxInt] at hmax hxmax
  have hzero : z - sval c x = 0 := Int.eq_zero_of_abs_lt_dvd h.dvd (abs_lt.mpr ⟨by omega, by omega⟩)
  omega

/-- A canonical Value is determined by its integer modulo `2^N`. -/
theorem canonical_ext {x y : LimbVec} (hx : canonical c x = true) (hy : canonical c y = true)
    (h : sval c x ≡ sval c y [ZMOD 2 ^ c.N]) : x = y := by
  obtain ⟨hxv, hxn⟩ := (canonical_iff c x).mp hx
  obtain ⟨hyv, hyn⟩ := (canonical_iff c y).mp hy
  obtain ⟨hxl, hxok⟩ := (isLimbVec_iff c x).mp hxv
  obtain ⟨hyl, hyok⟩ := (isLimbVec_iff c y).mp hyv
  have hmod : natOf c x ≡ natOf c y [MOD 2 ^ c.N] := by
    apply (Int.natCast_modEq_iff).mp
    push_cast
    exact (natOf_modEq_sval c x).trans (h.trans (natOf_modEq_sval c y).symm)
  have hu : uN c x = uN c y := hmod
  refine natOf_injective c hxok hyok (hxl.trans hyl.symm) ?_
  rw [hxn, hyn, bitAt_sign c x hxok, bitAt_sign c y hyok, hu]

/-! ## Sign and magnitude of a canonical Value (40_storage_sign.md R94, R95) -/

section
variable {x : LimbVec} (h : canonical c x = true)
include h

/-- R94: the top bit is bit `N-1` or a copy of it in the pad. -/
theorem isNegative_eq_decide : isNegative c x = decide (sval c x < 0) := by
  obtain ⟨-, hok⟩ := (isLimbVec_iff c x).mp (canonical_isLimbVec c h)
  have hpad : bitAt c x (c.L * c.W - 1) = bitAt c x (c.N - 1) := by
    have hle := N_le_bits c
    have hN := c.four_le_N
    obtain heq | hlt := hle.eq_or_lt
    · rw [heq]
    · exact canonical_padBit c h (by omega) (by omega)
  have hu := uN_lt c x
  rw [isNegative, hpad, bitAt_sign c x hok, sval_eq_of_uN c x hok]
  split
  next => simp
  next => rw [decide_eq_true (by omega : (uN c x : Int) - (2 ^ c.N : Nat) < 0), beq_self_eq_true]

/-- R95, with `twos_raw` undoing the pad bits of a negative Value. -/
theorem natOf_magnitude : natOf c (magnitude c x) = (sval c x).natAbs := by
  obtain ⟨hv, hn⟩ := (canonical_iff c x).mp h
  obtain ⟨-, hok⟩ := (isLimbVec_iff c x).mp hv
  have hu := uN_lt c x
  have hle := two_pow_N_le c
  have hN := two_pow_N_eq c
  have hsval := sval_eq_of_uN c x hok
  rw [bitAt_sign c x hok] at hn
  rw [magnitude, isNegative_eq_decide c h]
  by_cases hlow : uN c x < 2 ^ (c.N - 1)
  · rw [if_pos hlow] at hsval hn
    rw [hsval, if_neg (by simp)]
    omega
  · rw [if_neg hlow] at hsval hn
    have hneg : sval c x < 0 := by omega
    have habs : (sval c x).natAbs = 2 ^ c.N - uN c x := by omega
    rw [if_pos (decide_eq_true hneg), natOf_twosRaw c x hv, hn, habs, Nat.mod_eq_of_lt] <;> omega

theorem signed_isNegative_natAbs : signed (isNegative c x) (sval c x).natAbs = sval c x := by
  rw [isNegative_eq_decide c h, signed_natAbs]

theorem natAbs_sval_le : (sval c x).natAbs ≤ 2 ^ (c.N - 1) := by
  obtain ⟨-, hok⟩ := (isLimbVec_iff c x).mp (canonical_isLimbVec c h)
  obtain ⟨hmin, hmax⟩ := sval_bounds c x hok
  rw [minInt_eq] at hmin
  rw [maxInt_eq] at hmax
  omega

end

/-! ## The results of the engines modulo `2^N` -/

theorem natOf_limbsOf_modEq (n : Nat) : natOf c (limbsOf c c.L n) ≡ n [ZMOD 2 ^ c.N] := by
  rw [natOf_limbsOf]
  push_cast
  exact (Int.mod_modEq _ _).of_dvd (pow_dvd_pow 2 (N_le_bits c))

theorem natOf_twosRaw_modEq {x : LimbVec} (h : isLimbVec c x = true) :
    natOf c (twosRaw c x) ≡ -natOf c x [ZMOD 2 ^ c.N] := by
  obtain ⟨hl, hok⟩ := (isLimbVec_iff c x).mp h
  have hlt : natOf c x < 2 ^ (c.L * c.W) := hl ▸ natOf_lt c x hok
  rw [natOf_twosRaw c x h]
  push_cast [hlt.le]
  refine (Int.mod_modEq _ _).trans ?_ |>.of_dvd (pow_dvd_pow 2 (N_le_bits c))
  simpa using Int.modulus_modEq_zero.sub (Int.ModEq.refl _)

theorem sval_normN_modEq {x : LimbVec} {z : Int} (h : isLimbVec c x = true)
    (hz : natOf c x ≡ z [ZMOD 2 ^ c.N]) : sval c (normN c x) ≡ z [ZMOD 2 ^ c.N] := by
  rw [sval_normN c x h]
  exact (natOf_modEq_sval c x).symm.trans hz

/-- R122, modulo `2^N`. -/
theorem sval_add_modEq {a b : LimbVec} (ha : isLimbVec c a = true) (hb : isLimbVec c b = true) :
    sval c (add c a b) ≡ sval c a + sval c b [ZMOD 2 ^ c.N] := by
  obtain ⟨hal, -⟩ := (isLimbVec_iff c a).mp ha
  obtain ⟨hbl, -⟩ := (isLimbVec_iff c b).mp hb
  refine sval_normN_modEq c (addLoop_isLimbVec c ha hb 0) ?_
  have hsum : natOf c (addLoop c 0 a b) ≡ natOf c a + natOf c b [ZMOD 2 ^ c.N] := by
    rw [natOf_addLoop c a b 0 (hal.trans hbl.symm), hal, Nat.add_zero]
    push_cast
    exact (Int.mod_modEq _ _).of_dvd (pow_dvd_pow 2 (N_le_bits c))
  exact hsum.trans ((natOf_modEq_sval c a).add (natOf_modEq_sval c b))

/-- R96, modulo `2^N`, for magnitudes of any length. -/
theorem sval_fromMagnitudeAndSign_modEq (m : LimbVec) (neg : Bool) :
    sval c (fromMagnitudeAndSign c m neg) ≡ signed neg (natOf c m) [ZMOD 2 ^ c.N] := by
  have hv := limbsOf_isLimbVec c (natOf c m % 2 ^ c.N)
  have hlow : natOf c (limbsOf c c.L (natOf c m % 2 ^ c.N)) ≡ natOf c m [ZMOD 2 ^ c.N] := by
    refine (natOf_limbsOf_modEq c _).trans ?_
    push_cast
    exact Int.mod_modEq _ _
  cases neg with
  | false => exact sval_normN_modEq c hv hlow
  | true => exact sval_normN_modEq c (twosRaw_isLimbVec c _ hv) ((natOf_twosRaw_modEq c hv).trans hlow.neg)

/-- R96 where the signed number is in range. -/
theorem sval_fromMagnitudeAndSign {m : LimbVec} (neg : Bool) (hm : natOf c m < 2 ^ (c.N - 1)) :
    sval c (fromMagnitudeAndSign c m neg) = signed neg (natOf c m) := by
  obtain ⟨-, hok⟩ := (isLimbVec_iff c _).mp (canonical_isLimbVec c (fromMagnitudeAndSign_canonical c m neg))
  have habs : |signed neg (natOf c m)| < 2 ^ (c.N - 1) := by
    rw [Int.abs_eq_natAbs, natAbs_signed]
    exact_mod_cast hm
  obtain ⟨hmin, hmax⟩ := abs_lt.mp habs
  exact sval_eq_of_modEq c hok (sval_fromMagnitudeAndSign_modEq c m neg) hmin.le (Int.le_sub_one_of_lt hmax)

/-- R141, modulo `2^N`: the signs multiply by XOR and the accumulator holds the product of the magnitudes. -/
theorem sval_mul_modEq {a b : LimbVec} (ha : canonical c a = true) (hb : canonical c b = true) :
    sval c (mul c a b) ≡ sval c a * sval c b [ZMOD 2 ^ c.N] := by
  obtain ⟨-, -, hacc⟩ := natOf_mulAcc c (magnitude_isLimbVec c a (canonical_isLimbVec c ha))
    (magnitude_isLimbVec c b (canonical_isLimbVec c hb))
  have h := sval_fromMagnitudeAndSign_modEq c (mulAcc c (magnitude c a) (magnitude c b))
    (isNegative c a != isNegative c b)
  rwa [hacc, natOf_magnitude c ha, natOf_magnitude c hb, ← signed_mul, signed_isNegative_natAbs c ha,
    signed_isNegative_natAbs c hb] at h

end Sys2Proof.Machine
end

section
/-! SUPPORT. Quotient and remainder of `divmod` as integers, and the law their signs are chosen for
(44_divisive.md R152). -/

namespace Sys2Proof.Machine

/-- Quotient and remainder with the signs of R152 recompose the dividend. -/
theorem signed_div_mul_add_mod (p q : Bool) (m n : Nat) :
    signed (p != q) (m / n) * signed q n + signed p (m % n) = signed p m := by
  have hsign : ((p != q) != q) = p := by cases p <;> cases q <;> rfl
  rw [signed_mul, hsign, signed_add, Nat.div_add_mod']

variable (c : Config)

/-- The unsigned division of two magnitudes is that of the absolute values. -/
theorem natOf_udivmod_magnitude {a b : LimbVec} (ha : canonical c a = true) (hb : canonical c b = true)
    (hne : sval c b ≠ 0) :
    natOf c (udivmod c (magnitude c a) (magnitude c b)).1 = (sval c a).natAbs / (sval c b).natAbs ∧
    natOf c (udivmod c (magnitude c a) (magnitude c b)).2 = (sval c a).natAbs % (sval c b).natAbs := by
  have hlt : natOf c (magnitude c a) < 2 ^ c.N := by
    have hle := natAbs_sval_le c ha
    have hN := two_pow_N_eq c
    have hpos := Nat.two_pow_pos (c.N - 1)
    rw [natOf_magnitude c ha]
    omega
  have hpos : 0 < natOf c (magnitude c b) := by
    rw [natOf_magnitude c hb]
    exact Int.natAbs_pos.mpr hne
  obtain ⟨-, -, hq, hr⟩ := udivmod_spec c (magnitude_isLimbVec c a (canonical_isLimbVec c ha)) hlt hpos
  rw [hq, hr, natOf_magnitude c ha, natOf_magnitude c hb]
  exact ⟨rfl, rfl⟩

/-- R152 as an equation, for a divisor other than 0. -/
theorem divmod_eq_ok (a : LimbVec) {b : LimbVec} (hb : canonical c b = true) (hne : sval c b ≠ 0) :
    divmod c a b = .ok
      (fromMagnitudeAndSign c (udivmod c (magnitude c a) (magnitude c b)).1 (isNegative c a != isNegative c b),
        fromMagnitudeAndSign c (udivmod c (magnitude c a) (magnitude c b)).2 (isNegative c a)) := by
  have hmag : natOf c (magnitude c b) ≠ 0 := by
    rw [natOf_magnitude c hb]
    exact Int.natAbs_ne_zero.mpr hne
  rw [divmod, if_neg hmag]

section
variable {a b q r : LimbVec} (ha : canonical c a = true) (hb : canonical c b = true) (hne : sval c b ≠ 0)
  (hdiv : divmod c a b = .ok (q, r))
include ha hb hne hdiv

/-- The quotient is truncated toward zero, modulo `2^N`: `MIN` by `-1` leaves the range. -/
theorem sval_quotient_modEq : sval c q ≡ signed (isNegative c a != isNegative c b)
    ((sval c a).natAbs / (sval c b).natAbs) [ZMOD 2 ^ c.N] := by
  rw [divmod_eq_ok c a hb hne] at hdiv
  cases hdiv
  rw [← (natOf_udivmod_magnitude c ha hb hne).1]
  exact sval_fromMagnitudeAndSign_modEq c _ _

/-- The remainder is exact: it is below the divisor's magnitude, which is at most `2^(N-1)`. -/
theorem sval_remainder :
    sval c r = signed (isNegative c a) ((sval c a).natAbs % (sval c b).natAbs) := by
  rw [divmod_eq_ok c a hb hne] at hdiv
  cases hdiv
  have hrem := (natOf_udivmod_magnitude c ha hb hne).2
  have hlt := Nat.mod_lt (sval c a).natAbs (Int.natAbs_pos.mpr hne)
  rw [← hrem] at hlt ⊢
  exact sval_fromMagnitudeAndSign c _ (hlt.trans_le (natAbs_sval_le c hb))

theorem add_mul_quotient_remainder : add c (mul c q b) r = a := by
  obtain ⟨hq, hr⟩ := divmod_canonical c hdiv
  have hqb : canonical c (mul c q b) = true := mul_canonical c q b
  have hvqb := canonical_isLimbVec c hqb
  have hvr := canonical_isLimbVec c hr
  refine canonical_ext c (add_canonical c hvqb hvr) ha ?_
  calc sval c (add c (mul c q b) r)
      ≡ sval c (mul c q b) + sval c r [ZMOD 2 ^ c.N] := sval_add_modEq c hvqb hvr
    _ ≡ sval c q * sval c b + sval c r [ZMOD 2 ^ c.N] := (sval_mul_modEq c hq hb).add_right _
    _ ≡ signed (isNegative c a != isNegative c b) ((sval c a).natAbs / (sval c b).natAbs) * sval c b + sval c r
        [ZMOD 2 ^ c.N] := ((sval_quotient_modEq c ha hb hne hdiv).mul_right _).add_right _
    _ = sval c a := by
      have hlaw := signed_div_mul_add_mod (isNegative c a) (isNegative c b) (sval c a).natAbs (sval c b).natAbs
      rwa [signed_isNegative_natAbs c ha, signed_isNegative_natAbs c hb, ← sval_remainder c ha hb hne hdiv] at hlaw

theorem natAbs_remainder_lt : (sval c r).natAbs < (sval c b).natAbs := by
  rw [sval_remainder c ha hb hne hdiv, natAbs_signed]
  exact Nat.mod_lt _ (Int.natAbs_pos.mpr hne)

theorem isNegative_remainder (hr : sval c r ≠ 0) : isNegative c r = isNegative c a := by
  obtain ⟨-, hcan⟩ := divmod_canonical c hdiv
  rw [sval_remainder c ha hb hne hdiv] at hr
  rw [isNegative_eq_decide c hcan, sval_remainder c ha hb hne hdiv, Bool.eq_iff_iff, decide_eq_true_iff]
  exact signed_lt_zero_iff hr

end

/-! ## The obligation on the signs of `divmod` -/

/-- Settles O43: the XOR of the signs times the divisor's sign is the dividend's, so the unsigned division law carries
over to the integers modulo `2^N`, which determine a canonical Value. -/
theorem quotientAndRemainderRecomposeTheDividend : Obligations.QuotientAndRemainderRecomposeTheDividend := by
  intro c a b ha hb hne
  have hdiv := divmod_eq_ok c a hb hne
  exact ⟨_, _, hdiv, rfl, rfl, add_mul_quotient_remainder c ha hb hne hdiv,
    natAbs_remainder_lt c ha hb hne hdiv, isNegative_remainder c ha hb hne hdiv⟩

end Sys2Proof.Machine
end

section
/-! SUPPORT. `from_small_integer` as `wrap_N`: the signed reading of a 128-bit pattern, the limbs of its sign extension
as a number, and the canonical Value of an integer (00_scope.md R13, R14, 45_construction_conversion.md R170). -/

namespace Sys2Proof.Machine

/-! ## The signed reading of a pattern (00_scope.md R14) -/

theorem sext_toNat {K : Nat} (hK : 0 < K) (m : BitVec K) : sext K m.toNat = m.toInt := by
  have hpow : 2 ^ K = 2 * 2 ^ (K - 1) := by rw [← pow_succ', Nat.sub_add_cancel hK]
  rw [sext, BitVec.toInt_eq_toNat_cond]
  push_cast
  congr 1
  rw [hpow]
  simp

theorem State.immOperand_eq_toInt (s : State) : s.immOperand = s.imm.toInt := sext_toNat (by decide) s.imm

/-- Sign extension undoes taking the 128-bit pattern. -/
theorem sext_pattern {i : Int} (hmin : -2 ^ 127 ≤ i) (hmax : i ≤ 2 ^ 127 - 1) :
    sext 128 (i % 2 ^ 128).toNat = i := by
  have hpat : (BitVec.ofInt 128 i).toNat = (i % 2 ^ 128).toNat := BitVec.toNat_ofInt i
  rw [← hpat, sext_toNat (by decide)]
  exact BitVec.toInt_ofInt_eq_self (by decide) hmin (by omega)

variable (c : Config)

/-! ## The limbs of the sign extension -/

/-- The lowest digit of a number and the digits above it. -/
theorem emod_mul_eq {a : Int} (b e : Int) (ha : 0 ≤ a) : e % (a * b) = e % a + a * (e / a % b) := by
  rw [Int.emod_def, Int.emod_def e a, Int.emod_def (e / a) b, Int.ediv_ediv_of_nonneg ha]
  ring

/-- `K` limbs of the infinite pattern of `e` from limb `j` are `K*W` bits of `e` from bit `j*W`. -/
theorem natOf_patternLimbs (e : Int) : ∀ j K : Nat,
    (natOf c (patternLimbs c e j K) : Int) = e / 2 ^ (j * c.W) % 2 ^ (K * c.W)
  | j, 0 => by simp [patternLimbs, natOf]
  | j, K + 1 => by
    have hpos : (0 : Int) < 2 ^ c.W := by positivity
    have hlimb := Int.toNat_of_nonneg (Int.emod_nonneg (e / 2 ^ (j * c.W)) hpos.ne')
    have hnext : e / 2 ^ ((j + 1) * c.W) = e / 2 ^ (j * c.W) / 2 ^ c.W := by
      rw [Nat.succ_mul, pow_add, Int.ediv_ediv_of_nonneg (by positivity)]
    rw [patternLimbs, natOf]
    push_cast
    rw [hlimb, natOf_patternLimbs e (j + 1) K, hnext, Nat.succ_mul, Nat.add_comm, pow_add,
      emod_mul_eq _ _ hpos.le]

theorem natOf_patternLimbs_modEq (e : Int) : natOf c (patternLimbs c e 0 c.L) ≡ e [ZMOD 2 ^ c.N] := by
  rw [natOf_patternLimbs, Nat.zero_mul, pow_zero, Int.ediv_one]
  exact (Int.mod_modEq _ _).of_dvd (pow_dvd_pow 2 (N_le_bits c))

/-! ## The canonical Value of an integer (00_scope.md R13) -/

theorem wrapN_canonical (z : Int) : canonical c (wrapN c z) = true := by
  rw [wrapN_eq_normN]
  exact normN_canonical c _ (limbsOf_isLimbVec c _)

theorem wrapN_ok (z : Int) : LimbsOk c (wrapN c z) :=
  ((isLimbVec_iff c _).mp (canonical_isLimbVec c (wrapN_canonical c z))).2

theorem sval_wrapN_modEq (z : Int) : sval c (wrapN c z) ≡ z [ZMOD 2 ^ c.N] := by
  rw [wrapN_eq_normN]
  refine sval_normN_modEq c (limbsOf_isLimbVec c _) ((natOf_limbsOf_modEq c _).trans ?_)
  rw [Int.toNat_of_nonneg (Int.emod_nonneg z (by positivity))]
  exact Int.mod_modEq _ _

/-- R13: `wrap_N(z)` is the one canonical Value congruent to `z`. -/
theorem eq_wrapN_of_modEq {x : LimbVec} {z : Int} (hx : canonical c x = true)
    (h : sval c x ≡ z [ZMOD 2 ^ c.N]) : x = wrapN c z :=
  canonical_ext c hx (wrapN_canonical c z) (h.trans (sval_wrapN_modEq c z).symm)

theorem sval_wrapN_bounds (z : Int) : minInt c ≤ sval c (wrapN c z) ∧ sval c (wrapN c z) ≤ maxInt c :=
  sval_bounds c _ (wrapN_ok c z)

theorem sval_wrapN_of_mem_range {z : Int} (hmin : minInt c ≤ z) (hmax : z ≤ maxInt c) :
    sval c (wrapN c z) = z :=
  sval_eq_of_modEq c (wrapN_ok c z) (sval_wrapN_modEq c z) hmin hmax

/-! ## `from_small_integer` (45_construction_conversion.md R170) -/

section
variable {i : Int} (hmin : -2 ^ 127 ≤ i) (hmax : i ≤ 2 ^ 127 - 1)
include hmin hmax

theorem fromSmallInteger_eq_wrapN : fromSmallInteger c i = wrapN c i := by
  refine eq_wrapN_of_modEq c (fromSmallInteger_canonical c i) ?_
  rw [fromSmallInteger, sext_pattern hmin hmax]
  exact sval_normN_modEq c
    ((isLimbVec_iff c _).mpr ⟨patternLimbs_length c _ _ _, patternLimbs_ok c _ _ _⟩)
    (natOf_patternLimbs_modEq c i)

/-- A 128-bit integer is in the range of `N >= 128` bits. -/
theorem minInt_le_and_le_maxInt (hN : 128 ≤ c.N) : minInt c ≤ i ∧ i ≤ maxInt c := by
  have hpow : (2 ^ 127 : Int) ≤ 2 ^ (c.N - 1) := pow_le_pow_right₀ (by decide) (by omega)
  rw [minInt, maxInt]
  omega

end

theorem exec_ldi (s : State) (vd : Reg) : exec (.ldi vd) s = .next (s.writeV vd (wrapN s.cfg s.imm.toInt)) := by
  have hmin : -2 ^ 127 ≤ s.imm.toInt := BitVec.le_toInt s.imm
  have hlt : s.imm.toInt < 2 ^ 127 := BitVec.toInt_lt
  calc exec (.ldi vd) s
    _ = .next (s.writeV vd (fromSmallInteger s.cfg s.immOperand)) := rfl
    _ = .next (s.writeV vd (wrapN s.cfg s.imm.toInt)) := by
      rw [s.immOperand_eq_toInt, fromSmallInteger_eq_wrapN s.cfg hmin (Int.le_sub_one_of_lt hlt)]

/-! ## The obligation on LDI -/

/-- Settles O44: the limbs of the sign extension are congruent to the integer modulo `2^N`, so their normal form is the
one canonical Value with that residue. -/
theorem ldiWritesTheWrappedImmediate : Obligations.LdiWritesTheWrappedImmediate := by
  refine ⟨exec_ldi, fun c i hmin hmax => ?_⟩
  obtain ⟨hlow, hhigh⟩ := sval_wrapN_bounds c i
  rw [fromSmallInteger_eq_wrapN c hmin hmax]
  refine ⟨rfl, fun hN => ?_, hlow, hhigh, (sval_wrapN_modEq c i).symm.dvd⟩
  obtain ⟨hci, hic⟩ := minInt_le_and_le_maxInt c hmin hmax hN
  exact sval_wrapN_of_mem_range c hci hic

end Sys2Proof.Machine
end

section
/-! SUPPORT. What DIVMOD and PARSE do in each case of their operands, a command delivered by the host, and the fault
state under the host's actions (60_exceptions.md R201, R203, R204, R205, R206, R207, R208). -/

namespace Sys2Proof.Machine

/-! ## DIVMOD by zero, by another divisor and to equal destinations (60_exceptions.md R201) -/

theorem divmod_eq_error {c : Config} (a : LimbVec) {b : LimbVec} (hb : canonical c b = true)
    (h0 : sval c b = 0) : divmod c a b = .error .divisionByZero := by
  have hmag : natOf c (magnitude c b) = 0 := by rw [natOf_magnitude c hb, h0, Int.natAbs_zero]
  rw [divmod, if_pos hmag]

section
variable {s : State} {vq vr va vb : Reg}

theorem exec_divmod_same : exec (.divmod vq vq va vb) s = .next (s.raiseFault .illegalCommand) := by
  rw [exec, execDivmod, if_pos rfl]

theorem exec_divmod_by_zero (hne : vq ≠ vr) (hb : s.canonicalAt vb = true) (h0 : s.intAt vb = 0) :
    exec (.divmod vq vr va vb) s = .next (s.raiseFault .divisionByZero) := by
  rw [exec, execDivmod, if_neg hne, divmod_eq_error (s.readV va) hb h0]

theorem exec_divmod_completes (hne : vq ≠ vr) (hb : s.canonicalAt vb = true) (h0 : s.intAt vb ≠ 0) :
    ∃ q r, exec (.divmod vq vr va vb) s = .next ((s.writeV vq q).writeV vr r) := by
  rw [exec, execDivmod, if_neg hne, divmod_eq_ok s.cfg (s.readV va) hb h0]
  exact ⟨_, _, rfl⟩

/-- A DIVMOD that takes DivisionByZero had a zero divisor. -/
theorem intAt_eq_zero_of_divisionByZero (hs : s.status.fault = false) (hb : s.canonicalAt vb = true)
    (h : exec (.divmod vq vr va vb) s = .next (s.raiseFault .divisionByZero)) : s.intAt vb = 0 := by
  by_cases hq : vq = vr
  · subst hq
    rw [exec_divmod_same, Host.Outcome.next.injEq] at h
    exact absurd (congrArg (·.status.fcause) h) (by simp [Cause.code])
  · by_contra h0
    obtain ⟨q, r, hqr⟩ := exec_divmod_completes (va := va) hq hb h0
    rw [hqr, Host.Outcome.next.injEq] at h
    exact absurd (congrArg (·.status.fault) h) (by simp [hs])

end

/-! ## PARSE of a malformed text and of a well-formed one (60_exceptions.md R203, R208) -/

theorem fromText_isSome_iff (c : Config) (text : List Byte) : (fromText c text).isSome = true ↔ TextGrammar text := by
  rw [fromText_isSome, wellFormedText_iff]

section
variable {s : State} {vd : Reg}

theorem exec_parse_malformed (hfit : s.tlen.toNat ≤ s.cfg.TCAP) (hbad : ¬ TextGrammar s.text) :
    exec (.parse vd) s = .next (s.setPerr true) := by
  rw [← fromText_isSome_iff s.cfg, Option.not_isSome_iff_eq_none] at hbad
  rw [exec_parse, execParse_of_fits s vd hfit, hbad]

theorem exec_parse_wellFormed (hfit : s.tlen.toNat ≤ s.cfg.TCAP) (hgood : TextGrammar s.text) :
    ∃ x, exec (.parse vd) s = .next ((s.writeV vd x).setPerr false) := by
  rw [← fromText_isSome_iff s.cfg, Option.isSome_iff_exists] at hgood
  obtain ⟨x, hx⟩ := hgood
  exact ⟨x, by rw [exec_parse, execParse_of_fits s vd hfit, hx]⟩

/-- A PARSE of a text that fits keeps FAULT, malformed or not. -/
theorem exec_parse_keeps_fault {t : State} (hfit : s.tlen.toNat ≤ s.cfg.TCAP)
    (h : exec (.parse vd) s = .next t) : t.status.fault = s.status.fault := by
  by_cases hg : TextGrammar s.text
  · obtain ⟨x, hx⟩ := exec_parse_wellFormed (vd := vd) hfit hg
    cases hx.symm.trans h
    rfl
  · cases (exec_parse_malformed hfit hg).symm.trans h
    rfl

end

/-! ## The fault a command takes (60_exceptions.md R204) -/

/-- A command that takes a fault in the running state writes only that fault, and which one tells the command. -/
theorem exec_takes_fault {i : Instr} {s t : State} (hs : s.status.fault = false) (h : exec i s = .next t)
    (ht : t.status.fault = true) :
    (∃ vq va vb, i = .divmod vq vq va vb) ∧ t = s.raiseFault .illegalCommand ∨
    (∃ vq vr va vb, i = .divmod vq vr va vb) ∧ t = s.raiseFault .divisionByZero ∨
    (∃ vd, i = .parse vd) ∧ t = s.raiseFault .textLength :=
  (exec_fault_cases h).resolve_left fun hf => absurd (hf.symm.trans ht) (by simp [hs])

theorem raiseFault_faultFrame (s : State) (e : Cause) : FaultFrame s (s.raiseFault e) :=
  ⟨fun _ _ => rfl, rfl, rfl, rfl, rfl, rfl, fun _ => rfl, rfl, rfl, rfl⟩

/-! ## A command delivered by the host, and the fault state (60_exceptions.md R205, R206) -/

/-- In the running state a write of a legal word to CMD runs its command on the state without that write. -/
theorem step_of_decode {s : State} {w : HostWord} {rest : List HostAction} {i : Instr}
    (hf : s.status.fault = false) (hp : s.pending = .write 0x000 w :: rest) (hi : decode w = .ok i) :
    step s = exec i { s with pending := rest } := by
  calc step s
    _ = State.hostWrite { s with pending := rest } 0x000 w := step_write hp
    _ = State.writeCmd { s with pending := rest } w := State.hostWrite_cmd hf
    _ = exec i { s with pending := rest } := by rw [State.writeCmd, hi]

theorem readsOf_cons (a : HostAction) (as : List HostAction) : readsOf (a :: as) = readsOf [a] ++ readsOf as := by
  cases a <;> rfl

/-- In the fault state an action other than a reset is taken off the host's list and answered if it is a read. -/
theorem step_of_fault {s : State} {a : HostAction} {rest : List HostAction} (hf : s.status.fault = true)
    (hp : s.pending = a :: rest) (ha : a ≠ .reset) :
    step s = .next { s with pending := rest, returned := s.returned ++ (readsOf [a]).map s.hostRead } := by
  obtain ⟨hwrite, hread⟩ := faultStateIgnoresWritesAndAnswersReads s rest hf
  cases a with
  | write r d => rw [hwrite r d hp, readsOf, readsOf, List.map_nil, List.append_nil]
  | read r => exact hread r hp
  | reset => exact absurd rfl ha

theorem State.after_succ {s t : State} (h : step s = .next t) (k : Nat) : State.after (k + 1) s = State.after k t := by
  rw [State.after, h]

/-- R205 over any number of actions: an idle step and a step without a reset both keep what a read looks at. -/
theorem State.after_of_fault : ∀ (k : Nat) (s : State), s.status.fault = true → .reset ∉ s.pending.take k →
    State.after k s = some { s with
      pending := s.pending.drop k, returned := s.returned ++ (readsOf (s.pending.take k)).map s.hostRead }
  | 0, s, _, _ => by simp [State.after, readsOf]
  | k + 1, s, hf, hno => by
    cases hp : s.pending with
    | nil =>
      rw [State.after_succ (step_idle s hp), State.after_of_fault k s hf (by simp [hp])]
      simp [hp]
    | cons a rest =>
      rw [hp, List.take_succ_cons, List.mem_cons, not_or] at hno
      obtain ⟨ha, hrest⟩ := hno
      calc State.after (k + 1) s
        _ = State.after k { s with
            pending := rest, returned := s.returned ++ (readsOf [a]).map s.hostRead } :=
          State.after_succ (step_of_fault hf hp (Ne.symm ha)) k
        _ = some { s with
            pending := rest.drop k
            returned := s.returned ++ (readsOf [a]).map s.hostRead ++ (readsOf (rest.take k)).map s.hostRead } :=
          State.after_of_fault k _ hf hrest
        _ = _ := by
          rw [List.take_succ_cons, List.drop_succ_cons, readsOf_cons a (rest.take k), List.map_append,
            List.append_assoc]

/-! ## The obligations on faults and ParseError -/

/-- Settles O16: each field of a faulted state, and the faults a command can take. -/
theorem faultEntryWritesOnlyFaultAndCause : Obligations.FaultEntryWritesOnlyFaultAndCause := by
  refine fun s e => ⟨rfl, by cases e <;> rfl, raiseFault_faultFrame s e, rfl, rfl, fun i t hs h ht => ?_⟩
  obtain ⟨-, ht⟩ | ⟨-, ht⟩ | ⟨-, ht⟩ := exec_takes_fault hs h ht <;> exact ⟨_, ht⟩

/-- Settles O17, by induction on the number of actions, and by the values of the reset state. -/
theorem faultStateLastsUntilReset : Obligations.FaultStateLastsUntilReset :=
  ⟨State.after_of_fault, fun s _ hp => ⟨_, step_pending s _ _ hp, rfl, State.readV_resetOf s.cfg⟩⟩

/-- Settles O19: DIVMOD by zero faults, and of the commands that can fault only a DIVMOD takes cause 1, which with
another divisor it does not. -/
theorem divisionByZeroIsRaisedByDivmodAlone : Obligations.DivisionByZeroIsRaisedByDivmodAlone := by
  refine fun s => ⟨fun vq vr va vb hne hb h0 => exec_divmod_by_zero hne hb h0, fun i t hinv hs h ht hc => ?_⟩
  obtain ⟨hcan, -⟩ := s.inv_iff.mp hinv
  obtain ⟨-, rfl⟩ | ⟨⟨vq, vr, va, vb, rfl⟩, rfl⟩ | ⟨-, rfl⟩ := exec_takes_fault hs h ht
  · exact absurd hc (by simp [Cause.code])
  · exact ⟨vq, vr, va, vb, rfl, intAt_eq_zero_of_divisionByZero hs (hcan vb) h⟩
  · exact absurd hc (by simp [Cause.code])

/-- Settles O20: of the commands that can fault only a PARSE takes cause 3, which with a text that fits it does
not. -/
theorem textLengthIsRaisedByParseAlone : Obligations.TextLengthIsRaisedByParseAlone := by
  refine fun s => ⟨fun vd hlong => execParse_beyond s vd hlong, fun i t hs h ht hc => ?_⟩
  obtain ⟨-, rfl⟩ | ⟨-, rfl⟩ | ⟨⟨vd, rfl⟩, rfl⟩ := exec_takes_fault hs h ht
  · exact absurd hc (by simp [Cause.code])
  · exact absurd hc (by simp [Cause.code])
  · refine ⟨⟨vd, rfl⟩, not_le.mp fun hfit => ?_⟩
    exact absurd ((exec_parse_keeps_fault hfit h).trans hs) (by simp)

/-- Settles O21: a malformed text sets PERR, which the delivery of the next command does not look at and no command
but PARSE writes. -/
theorem parseErrorSetsPerrAlone : Obligations.ParseErrorSetsPerrAlone :=
  fun _ => ⟨fun _ hfit hbad => ⟨exec_parse_malformed hfit hbad, fun _ _ _ hf hp hi => step_of_decode hf hp hi⟩,
    fun _ _ hi h => exec_keeps_perr hi h⟩

/-- Settles O22: the decoder comes before the command, and each command's own conditions exclude each other. -/
theorem firstConditionIsReported : Obligations.FirstConditionIsReported := by
  intro s w rest hf hp
  obtain ⟨hillegal, -, -⟩ := illegalWordTakesIllegalCommand s w rest hf hp
  refine ⟨hillegal, fun vd hi hlong => ?_, fun vq vr va vb hi hb h0 => ?_, fun vd hi hfit hbad => ?_⟩
  · exact (step_of_decode hf hp hi).trans (execParse_beyond _ vd hlong)
  · obtain ⟨-, -, -, hwf⟩ := decode_ok_fits hi
    exact (step_of_decode hf hp hi).trans (exec_divmod_by_zero (bne_iff_ne.mp hwf) hb h0)
  · exact (step_of_decode hf hp hi).trans (exec_parse_malformed hfit hbad)

/-- Settles O23: a register write leaves STATUS, and so does every command that ends in one, but for the PERR of
PARSE. -/
theorem overflowIsNoException : Obligations.OverflowIsNoException := by
  refine fun s => ⟨fun vd va vb => ⟨_, rfl, rfl⟩, fun vd va vb => ⟨_, rfl, rfl⟩, fun vd va => ⟨_, rfl, rfl⟩,
    fun vd va vb => ⟨_, rfl, rfl⟩, fun vd => ⟨_, rfl, rfl⟩, fun vq vr va vb hne hb h0 => ?_,
    fun vd hfit hgood => ?_⟩
  · obtain ⟨q, r, h⟩ := exec_divmod_completes (va := va) hne hb h0
    exact ⟨_, h, rfl⟩
  · obtain ⟨x, h⟩ := exec_parse_wellFormed (vd := vd) hfit hgood
    exact ⟨_, h, rfl⟩

end Sys2Proof.Machine
end

section
/-! SUPPORT. A command word is determined by its fields, and the decoder inverts the encoder row by row
(30_encoding.md R71, R72, R74, R76, R79). -/

namespace Sys2Proof.Machine

/-- The command word of some fields is the one word with `z = 0` and these fields (30_encoding.md R71). -/
theorem commandWord_eq_iff {op : Nat} {vd va vb vr : Reg} {w : HostWord} (h : op < 256) :
    commandWord op vd va vb vr = w ↔ zField w = 0 ∧ (opField w).toNat = op ∧ vdField w = vd ∧ vaField w = va ∧
      vbField w = vb ∧ vrField w = vr := by
  obtain ⟨hop, hz⟩ := commandWord_op_z op vd va vb vr h
  obtain ⟨hvd, hva, hvb, hvr⟩ := commandWord_regs op vd va vb vr h
  constructor
  · rintro rfl
    exact ⟨hz, hop, hvd, hva, hvb, hvr⟩
  · rintro ⟨hz', hop', hvd', hva', hvb', hvr'⟩
    exact eq_of_fields (hz.trans hz'.symm) (BitVec.eq_of_toNat_eq (hop.trans hop'.symm)) (hvd.trans hvd'.symm)
      (hva.trans hva'.symm) (hvb.trans hvb'.symm) (hvr.trans hvr'.symm)

/-- A row of the decoder gives a command exactly for its own word, if the row's check and the fields that the row
reads say that the command is well formed and the word holds its operands. -/
theorem decode_eq_ok_iff_of_row {w : HostWord} {i j : Instr} {e : DecodeError} {p : Prop} [Decidable p]
    {vd va vb vr : Reg}
    (hrow : zField w = 0 → (opField w).toNat = opcode i → decode w = if p then .error e else .ok j)
    (henc : encode i = commandWord (opcode i) vd va vb vr)
    (hfields : ¬ p ∧ j = i ↔
      i.wellFormed = true ∧ vdField w = vd ∧ vaField w = va ∧ vbField w = vb ∧ vrField w = vr) :
    decode w = .ok i ↔ i.wellFormed = true ∧ encode i = w := by
  have hop : opcode i < 256 := by cases i <;> simp [opcode]
  rw [henc, commandWord_eq_iff hop, and_left_comm, and_left_comm (b := _ = opcode i), ← hfields]
  constructor
  · intro h
    obtain ⟨-, hz, hop, -⟩ := decode_ok_fits h
    rw [hrow hz hop] at h
    split at h
    · cases h
    next hp => exact ⟨hz, hop, hp, Except.ok.inj h⟩
  · rintro ⟨hz, hop, hp, rfl⟩
    rw [hrow hz hop, if_neg hp]

/-- The words that decode to a command: its own word alone, and none for a DIVMOD with equal destinations. -/
theorem decode_eq_ok_iff_encode (w : HostWord) (i : Instr) :
    decode w = .ok i ↔ i.wellFormed = true ∧ encode i = w := by
  cases i with
  | cmp va vb => exact decode_eq_ok_iff_of_row decode_cmp rfl (by simp only [Instr.wellFormed, Instr.cmp.injEq]; tauto)
  | add vd va vb => exact decode_eq_ok_iff_of_row decode_add rfl (by simp only [Instr.wellFormed, Instr.add.injEq]; tauto)
  | neg vd va => exact decode_eq_ok_iff_of_row decode_neg rfl (by simp only [Instr.wellFormed, Instr.neg.injEq]; tauto)
  | sub vd va vb => exact decode_eq_ok_iff_of_row decode_sub rfl (by simp only [Instr.wellFormed, Instr.sub.injEq]; tauto)
  | mul vd va vb => exact decode_eq_ok_iff_of_row decode_mul rfl (by simp only [Instr.wellFormed, Instr.mul.injEq]; tauto)
  | divmod vq vr va vb =>
    refine decode_eq_ok_iff_of_row decode_divmod rfl ?_
    simp only [Instr.wellFormed, bne_iff_ne, Instr.divmod.injEq]
    constructor
    · rintro ⟨hne, rfl, rfl, rfl, rfl⟩
      exact ⟨hne, rfl, rfl, rfl, rfl⟩
    · rintro ⟨hne, rfl, rfl, rfl, rfl⟩
      exact ⟨hne, rfl, rfl, rfl, rfl⟩
  | ldi vd => exact decode_eq_ok_iff_of_row decode_ldi rfl (by simp only [Instr.wellFormed, Instr.ldi.injEq]; tauto)
  | parse vd => exact decode_eq_ok_iff_of_row decode_parse rfl (by simp only [Instr.wellFormed, Instr.parse.injEq]; tauto)
  | fmt va => exact decode_eq_ok_iff_of_row decode_fmt rfl (by simp only [Instr.wellFormed, Instr.fmt.injEq]; tauto)

/-! ## The obligations on the round trips -/

/-- Settles O1: a well-formed command is what its own word decodes to. -/
theorem decodeOfEncodeGivesTheCommandBack : Obligations.DecodeOfEncodeGivesTheCommandBack :=
  fun i hi => (decode_eq_ok_iff_encode (encode i) i).mpr ⟨hi, rfl⟩

/-- Settles O2: a word that decodes to a command is that command's own word. -/
theorem acceptedWordIsTheEncodingOfItsCommand : Obligations.AcceptedWordIsTheEncodingOfItsCommand :=
  fun w i h => ((decode_eq_ok_iff_encode w i).mp h).symm

/-- Settles O4: the decoder evaluated on each word. -/
theorem tabulatedWordsDecode : Obligations.TabulatedWordsDecode :=
  ⟨rfl, rfl, rfl, rfl, rfl, rfl, rfl, rfl, rfl, rfl, rfl, rfl⟩

/-- Settles O42: DIVMOD tests its destinations first, and no word decodes to a command that is not well formed. -/
theorem divmodOfOneDestinationIsIllegal : Obligations.DivmodOfOneDestinationIsIllegal := by
  refine fun s v va vb => ⟨exec_divmod_same, fun w h => ?_⟩
  obtain ⟨hwf, -⟩ := (decode_eq_ok_iff_encode w _).mp h
  exact absurd rfl (bne_iff_ne.mp hwf)

end Sys2Proof.Machine
end

section
/-! SUPPORT. What each command leaves unchanged, what a step does to the host's lists, and the invariant under every
command and every host action (10_state.md R20 to R33, 20_memory.md R55, R64, 70_reset_and_hazards.md R220, R227). -/

namespace Sys2Proof.Machine

/-! ## What a command can write -/

/-- A DIVMOD writes its two results or takes a fault. -/
theorem exec_divmod_cases {vq vr va vb : Reg} {s t : State} (h : exec (.divmod vq vr va vb) s = .next t) :
    (∃ q r, t = (s.writeV vq q).writeV vr r) ∨ ∃ e, t = s.raiseFault e := by
  simp only [exec, execDivmod] at h
  split at h
  · cases h; exact .inr ⟨_, rfl⟩
  · split at h
    · cases h; exact .inr ⟨_, rfl⟩
    · cases h; exact .inl ⟨_, _, rfl⟩

/-- A PARSE writes its destination and clears PERR, sets PERR alone, or takes a fault. -/
theorem exec_parse_cases {vd : Reg} {s t : State} (h : exec (.parse vd) s = .next t) :
    (∃ x, t = (s.writeV vd x).setPerr false) ∨ t = s.setPerr true ∨ ∃ e, t = s.raiseFault e := by
  rw [exec_parse] at h
  obtain hfit | hlong := le_or_gt s.tlen.toNat s.cfg.TCAP
  · rw [execParse_of_fits s vd hfit] at h
    split at h
    · cases h; exact .inl ⟨_, rfl⟩
    · cases h; exact .inr (.inl rfl)
  · rw [execParse_beyond s vd hlong] at h
    cases h; exact .inr (.inr ⟨_, rfl⟩)

/-- An FMT writes TLEN and the bytes below it. -/
theorem exec_fmt_writes {va : Reg} {s t : State} (h : exec (.fmt va) s = .next t) : ∃ m,
    t = { s with txt := m, tlen := BitVec.ofNat 16 (toText s.cfg (s.readV va)).length } ∧
      ∀ i, (toText s.cfg (s.readV va)).length ≤ i → m.read i = s.txt.read i := by
  obtain ⟨ht, -, hrest, -⟩ :=
    State.writeTextResult_spec (toText_ne_unlistedByte s.cfg (s.readV va)) (exec_fmt_iff.mp h)
  exact ⟨t.txt, ht, hrest⟩

/-- No command writes IMM, the configuration or the host's lists. -/
theorem exec_keeps_rest {i : Instr} {s t : State} (h : exec i s = .next t) : t.imm = s.imm ∧ SameHost s t := by
  cases i with
  | cmp va vb => cases h; exact ⟨rfl, rfl, rfl, rfl⟩
  | add vd va vb => cases h; exact ⟨rfl, rfl, rfl, rfl⟩
  | neg vd va => cases h; exact ⟨rfl, rfl, rfl, rfl⟩
  | sub vd va vb => cases h; exact ⟨rfl, rfl, rfl, rfl⟩
  | mul vd va vb => cases h; exact ⟨rfl, rfl, rfl, rfl⟩
  | divmod vq vr va vb => obtain ⟨q, r, rfl⟩ | ⟨e, rfl⟩ := exec_divmod_cases h <;> exact ⟨rfl, rfl, rfl, rfl⟩
  | ldi vd => cases h; exact ⟨rfl, rfl, rfl, rfl⟩
  | parse vd => obtain ⟨x, rfl⟩ | rfl | ⟨e, rfl⟩ := exec_parse_cases h <;> exact ⟨rfl, rfl, rfl, rfl⟩
  | fmt va =>
    obtain ⟨m, rfl, -⟩ := exec_fmt_writes h
    exact ⟨rfl, rfl, rfl, rfl⟩

/-- Writing one register changes no other. -/
theorem registerFrame_writeV (s : State) (r : Reg) (x : LimbVec) : RegisterFrame s (s.writeV r x) [r] :=
  ⟨fun r' hr => s.readV_writeV_ne r r' x (by simpa using hr), rfl, rfl, rfl, fun _ => rfl, rfl, rfl, rfl⟩

/-- Writing two registers changes no other. -/
theorem registerFrame_writeV_writeV (s : State) (q r : Reg) (x y : LimbVec) :
    RegisterFrame s ((s.writeV q x).writeV r y) [q, r] := by
  refine ⟨fun r' hr => ?_, rfl, rfl, rfl, fun _ => rfl, rfl, rfl, rfl⟩
  simp only [List.mem_cons, List.not_mem_nil, or_false, not_or] at hr
  obtain ⟨hq, hr⟩ := hr
  rw [State.readV_writeV_ne _ _ _ _ hr, State.readV_writeV_ne _ _ _ _ hq]

/-! ## What a command does not read -/

/-- IMM, replaced by `m`, is untouched by every command but LDI. -/
theorem untouched_imm {i : Instr} (hi : ∀ vd, i ≠ .ldi vd) (m : BitVec 128) :
    Untouched i fun t => { t with imm := m } where
  cfg _ := rfl
  v _ := rfl
  writeV _ _ _ := rfl
  raiseFault _ _ := rfl
  setCmp _ _ _ _ _ := rfl
  imm vd h := absurd h (hi vd)
  tlen _ _ _ := rfl
  txt _ _ := rfl
  setPerr _ _ _ _ := rfl
  setTxt _ _ _ _ := rfl
  setTlen _ _ _ _ := rfl

/-- The host's lists, replaced by `p` and `q`, are untouched by every command. -/
theorem untouched_lists (i : Instr) (p : List HostAction) (q : List HostWord) :
    Untouched i fun t => { t with pending := p, returned := q } where
  cfg _ := rfl
  v _ := rfl
  writeV _ _ _ := rfl
  raiseFault _ _ := rfl
  setCmp _ _ _ _ _ := rfl
  imm _ _ _ := rfl
  tlen _ _ _ := rfl
  txt _ _ := rfl
  setPerr _ _ _ _ := rfl
  setTxt _ _ _ _ := rfl
  setTlen _ _ _ _ := rfl

/-! ## What a host action does to the host's lists -/

/-- Whatever the host does, its list of later actions and the configuration stay, and only a read returns data. -/
theorem perform_keeps_lists {s t : State} {a : HostAction} (h : s.perform a = .next t) :
    t.pending = s.pending ∧ t.cfg = s.cfg ∧ t.returned = s.returned ++ (readsOf [a]).map s.hostRead := by
  cases a with
  | read r => cases h; exact ⟨rfl, rfl, rfl⟩
  | reset => cases h; exact ⟨rfl, rfl, (List.append_nil _).symm⟩
  | write r d =>
    have hsame : SameHost s t := by
      obtain rfl | ⟨w, i, -, -, -, hi⟩ | ⟨w, e, -, -, -, rfl⟩ | ⟨n, -, rfl⟩ | ⟨m, -, rfl⟩ | ⟨i, b, -, -, rfl⟩ |
        ⟨r, ha, -⟩ | ⟨ha, -⟩ := perform_next_cases s t _ h
      · exact ⟨rfl, rfl, rfl⟩
      · exact (exec_keeps_rest hi).2
      · exact ⟨rfl, rfl, rfl⟩
      · exact ⟨rfl, rfl, rfl⟩
      · exact ⟨rfl, rfl, rfl⟩
      · exact ⟨rfl, rfl, rfl⟩
      · cases ha
      · cases ha
    obtain ⟨hcfg, hpending, hreturned⟩ := hsame
    exact ⟨hpending, hcfg, hreturned.trans (List.append_nil _).symm⟩

/-! ## The invariant -/

theorem Status.legal_iff (t : Status) : t.legal = true ↔
    (if t.fault = true then t.fcause = 1 ∨ t.fcause = 2 ∨ t.fcause = 3 else t.fcause = 0) ∧ t.cmp ≠ 0b11 := by
  rw [Status.legal]
  split <;> simp [or_assoc]

theorem Status.legal_reset : Status.reset.legal = true := rfl

theorem Comparison.code_ne_three (o : Comparison) : o.code ≠ 0b11 := by
  cases o <;> decide

/-- A state with the same value registers and buffer meets the invariant if its STATUS is legal. -/
theorem State.inv_of_legal {s t : State} (hs : s.inv = true) (hcfg : t.cfg = s.cfg) (hv : t.v = s.v)
    (htxt : t.txt = s.txt) (hstatus : t.status.legal = true) : t.inv = true := by
  obtain ⟨hcan, hwf, hbelow, -⟩ := s.inv_iff.mp hs
  refine t.inv_iff.mpr ⟨fun r => ?_, htxt ▸ hwf, ?_, hstatus⟩
  · rw [hcfg, State.readV, hv]
    exact hcan r
  · rw [htxt, hcfg]
    exact hbelow

section
variable {s : State} (hs : s.inv = true)
include hs

theorem State.inv_legal : s.status.legal = true := by
  obtain ⟨-, -, -, hstatus⟩ := s.inv_iff.mp hs
  exact hstatus

theorem State.inv_setPending (p : List HostAction) : State.inv { s with pending := p } = true :=
  State.inv_of_legal hs rfl rfl rfl (State.inv_legal hs)

theorem State.inv_setCmp (o : Comparison) : (s.setCmp o).inv = true := by
  refine State.inv_of_legal hs rfl rfl rfl ((Status.legal_iff _).mpr ⟨?_, o.code_ne_three⟩)
  exact ((Status.legal_iff _).mp (State.inv_legal hs)).1

theorem State.inv_setPerr (b : Bool) : (s.setPerr b).inv = true :=
  State.inv_of_legal hs rfl rfl rfl (State.inv_legal hs)

theorem State.inv_raiseFault (e : Cause) : (s.raiseFault e).inv = true := by
  refine State.inv_of_legal hs rfl rfl rfl ((Status.legal_iff _).mpr ⟨e.code_cases, ?_⟩)
  exact ((Status.legal_iff _).mp (State.inv_legal hs)).2

theorem State.inv_writeV (r : Reg) {x : LimbVec} (hx : canonical s.cfg x = true) : (s.writeV r x).inv = true := by
  obtain ⟨hcan, hwf, hbelow, hstatus⟩ := s.inv_iff.mp hs
  refine (State.inv_iff _).mpr ⟨fun r' => ?_, hwf, hbelow, hstatus⟩
  by_cases hr : r' = r
  · rw [hr, State.readV_writeV_same]
    exact hx
  · rw [State.readV_writeV_ne _ _ _ _ hr]
    exact hcan r'

theorem State.inv_writeTextResult {t : State} {out : List Byte} (h : s.writeTextResult out = .ok t) :
    t.inv = true := by
  obtain ⟨hcan, hwf, hbelow, hstatus⟩ := s.inv_iff.mp hs
  rw [State.writeTextResult] at h
  split at h
  · cases h
  next s' hw =>
    obtain ⟨hs', hwf', hbelow', -⟩ := State.writeText_spec out s s' 0 hw
    cases h
    rw [hs']
    exact (State.inv_iff _).mpr ⟨hcan, hwf' hwf, hbelow' hbelow, hstatus⟩

theorem exec_keeps_inv {i : Instr} {t : State} (h : exec i s = .next t) : t.inv = true := by
  obtain ⟨hcan, -⟩ := s.inv_iff.mp hs
  obtain ⟨o, rfl⟩ | ⟨r, x, hx, rfl⟩ | ⟨q, r, x, y, hx, hy, -, rfl⟩ | ⟨e, rfl⟩ | ⟨r, x, hx, rfl⟩ | rfl |
    ⟨va, -, hw⟩ := exec_next_cases i s t (fun r => canonical_isLimbVec s.cfg (hcan r)) h
  · exact State.inv_setCmp hs o
  · exact State.inv_writeV hs r hx
  · exact State.inv_writeV (State.inv_writeV hs q hx) r hy
  · exact State.inv_raiseFault hs e
  · exact State.inv_setPerr (State.inv_writeV hs r hx) false
  · exact State.inv_setPerr hs true
  · exact State.inv_writeTextResult hs hw

end

theorem State.inv_resetOf (c : Config) : (State.resetOf c).inv = true := by
  refine (State.inv_iff _).mpr ⟨fun r => ?_, rfl, rfl, Status.legal_reset⟩
  rw [State.readV_resetOf]
  exact zeroLimbs_canonical c

theorem perform_keeps_inv {s t : State} {a : HostAction} (hs : s.inv = true) (h : s.perform a = .next t) :
    t.inv = true := by
  obtain rfl | ⟨w, i, -, -, -, hi⟩ | ⟨w, e, -, -, -, rfl⟩ | ⟨n, -, rfl⟩ | ⟨m, -, rfl⟩ | ⟨i, b, hi, -, rfl⟩ |
    ⟨r, -, rfl⟩ | ⟨-, rfl⟩ := perform_next_cases s t a h
  · exact hs
  · exact exec_keeps_inv hs hi
  · exact State.inv_raiseFault hs .illegalCommand
  · exact State.inv_of_legal hs rfl rfl rfl (State.inv_legal hs)
  · exact State.inv_of_legal hs rfl rfl rfl (State.inv_legal hs)
  · obtain ⟨hcan, hwf, hbelow, hstatus⟩ := s.inv_iff.mp hs
    exact (State.inv_iff _).mpr ⟨hcan, Memory.write_wf _ i b hwf, Memory.write_below _ i _ b hbelow hi, hstatus⟩
  · exact State.inv_of_legal hs rfl rfl rfl (State.inv_legal hs)
  · exact State.inv_of_legal (State.inv_resetOf s.cfg) rfl rfl rfl Status.legal_reset

/-! ## STATUS as a number (10_state.md R26) -/

theorem flagBit_toNat (b : Bool) : (flagBit b).toNat = if b then 1 else 0 := by cases b <;> rfl

theorem toNat_append_eq_add {m n : Nat} (x : BitVec m) (y : BitVec n) :
    (x ++ y).toNat = x.toNat * 2 ^ n + y.toNat := by
  rw [BitVec.toNat_append, Nat.shiftLeft_eq, Nat.mul_comm, Nat.two_pow_add_eq_or_of_lt y.isLt]

theorem Status.word_toNat (t : Status) : t.word.toNat =
    (if t.fault then 1 else 0) + 2 * t.fcause.toNat + 16 * (if t.perr then 1 else 0) + 32 * t.cmp.toNat := by
  rw [Status.word]
  simp only [toNat_append_eq_add, flagBit_toNat, show (0 : BitVec 25).toNat = 0 from rfl]
  ring

theorem Status.word_high (t : Status) : t.word.extractLsb' 7 25 = 0 := by
  change BitVec.extractLsb' (n := 25 + 2 + 1 + 3 + 1) 7 25
    ((0 : BitVec 25) ++ t.cmp ++ flagBit t.perr ++ t.fcause ++ flagBit t.fault) = 0
  rw [BitVec.extractLsb'_append_eq_of_le (by decide), BitVec.extractLsb'_append_eq_of_le (by decide),
    BitVec.extractLsb'_append_eq_of_le (by decide)]
  exact BitVec.extractLsb'_append_eq_left

/-! ## The obligations on frames -/

/-- Settles O49: each of the commands ends in register writes, and a DIVMOD in two of them or a fault. -/
theorem registerCommandsFrame : Obligations.RegisterCommandsFrame := by
  refine fun s t vd vr va vb => ⟨?add, ?sub, ?neg, ?mul, ?ldi, ?divmod⟩
  case add => rintro ⟨⟩; exact registerFrame_writeV s vd _
  case sub => rintro ⟨⟩; exact registerFrame_writeV s vd _
  case neg => rintro ⟨⟩; exact registerFrame_writeV s vd _
  case mul => rintro ⟨⟩; exact registerFrame_writeV s vd _
  case ldi => rintro ⟨⟩; exact registerFrame_writeV s vd _
  case divmod =>
    intro h
    obtain ⟨q, r, rfl⟩ | ⟨e, rfl⟩ := exec_divmod_cases h
    · exact .inl (registerFrame_writeV_writeV s vd vr q r)
    · exact .inr (raiseFault_faultFrame s e)

/-- Settles O50: CMP ends in a write of its flag. -/
theorem cmpFrame : Obligations.CmpFrame := by
  rintro s t va vb ⟨⟩
  exact ⟨fun _ _ => rfl, rfl, rfl, rfl, rfl, rfl, fun _ => rfl, rfl, rfl, rfl⟩

/-- Settles O51, by the three ways a PARSE ends. -/
theorem parseFrame : Obligations.ParseFrame := by
  intro s t vd h
  obtain ⟨x, rfl⟩ | rfl | ⟨e, rfl⟩ := exec_parse_cases h
  · obtain ⟨hregs, -⟩ := registerFrame_writeV s vd x
    exact .inl ⟨hregs, rfl, rfl, rfl, rfl, rfl, fun _ => rfl, ⟨rfl, rfl, rfl⟩, nofun⟩
  · exact .inl ⟨fun _ _ => rfl, rfl, rfl, rfl, rfl, rfl, fun _ => rfl, ⟨rfl, rfl, rfl⟩, fun _ _ _ => rfl⟩
  · exact .inr (raiseFault_faultFrame s e)

/-- Settles O52, by what an FMT writes. -/
theorem fmtFrame : Obligations.FmtFrame := by
  intro s t va h
  obtain ⟨m, rfl, hrest⟩ := exec_fmt_writes h
  exact ⟨fun _ _ => rfl, rfl, rfl, ⟨rfl, rfl, rfl⟩, rfl, hrest⟩

/-- Settles O54: no command writes IMM, and it is untouched by every command but LDI. -/
theorem immIsReadByLdiAlone : Obligations.ImmIsReadByLdiAlone :=
  ⟨fun _ _ _ h => (exec_keeps_rest h).1, fun _ s m hi => (untouched_imm hi m).exec_eq_mapNext s⟩

/-- Settles O55: the host's lists are untouched by every command. -/
theorem commandsIgnoreTheHostsLists : Obligations.CommandsIgnoreTheHostsLists :=
  fun i s p q => (untouched_lists i p q).exec_eq_mapNext s

/-! ## The obligations on steps -/

/-- Settles O6: the write to CMD reaches the command through the decoder. -/
theorem stepRunsTheDecodedCommand : Obligations.StepRunsTheDecodedCommand :=
  fun _ _ _ _ hf hp hi => step_of_decode hf hp hi

/-- Settles O9: the fields of STATUS are appended with 25 zeros above. -/
theorem statusReadsItsFields : Obligations.StatusReadsItsFields :=
  fun s => ⟨s.status.word_toNat, s.status.word_high⟩

/-- Settles O12, by the first branch of a step. -/
theorem idleCoreHoldsItsState : Obligations.IdleCoreHoldsItsState := step_idle

/-- Settles O13: a step is the first action performed on the state without it. -/
theorem stepTakesTheFirstActionOnly : Obligations.StepTakesTheFirstActionOnly := by
  intro s t a rest hp h
  rw [step_pending s a rest hp] at h
  exact perform_keeps_lists h

/-- Settles O15: a reset reads the configuration and the host's lists only, and in the fault state any other action
only takes itself off the list and is answered. -/
theorem resetActionSetsEverything : Obligations.ResetActionSetsEverything := by
  refine fun s rest => ⟨fun hp => step_pending s .reset rest hp, fun a t ha hp hf h => ?_⟩
  rw [step_of_fault hf hp ha] at h
  cases h
  exact hf

/-! ## The obligations on the invariant -/

/-- Settles O56: zero is canonical, the buffer is empty and STATUS is 0. -/
theorem resetMeetsTheInvariant : Obligations.ResetMeetsTheInvariant := State.inv_resetOf

/-- Settles O57: taking an action off the host's list keeps the invariant, and so does performing it. -/
theorem stepKeepsTheInvariant : Obligations.StepKeepsTheInvariant := by
  intro s t hs h
  cases hp : s.pending with
  | nil =>
    rw [step_idle s hp] at h
    cases h
    exact hs
  | cons a rest =>
    rw [step_pending s a rest hp] at h
    exact perform_keeps_inv (State.inv_setPending hs rest) h

end Sys2Proof.Machine
end

section
/-! SUPPORT. The closed forms of the engines: `wrap_N` of the integers' negation, sum, difference, product, quotient
and remainder, and the laws that follow from them (40_storage_sign.md R93 to R98, 42_additive.md R122 to R129,
43_multiplicative.md R141, R143, 44_divisive.md R153). -/

namespace Sys2Proof.Machine

variable (c : Config)

/-! ## `wrap_N` names each integer of the range once (40_storage_sign.md R93) -/

theorem wrapN_congr {y z : Int} (h : y ≡ z [ZMOD 2 ^ c.N]) : wrapN c y = wrapN c z :=
  eq_wrapN_of_modEq c (wrapN_canonical c y) ((sval_wrapN_modEq c y).trans h)

theorem wrapN_sval {x : LimbVec} (h : canonical c x = true) : wrapN c (sval c x) = x :=
  (eq_wrapN_of_modEq c h rfl).symm

theorem wrapN_isLimbVec (z : Int) : isLimbVec c (wrapN c z) = true :=
  canonical_isLimbVec c (wrapN_canonical c z)

theorem canonical_sval_bounds {x : LimbVec} (h : canonical c x = true) :
    minInt c ≤ sval c x ∧ sval c x ≤ maxInt c :=
  sval_bounds c x ((isLimbVec_iff c x).mp (canonical_isLimbVec c h)).2

/-- Every canonical Value is `wrap_N` of an integer. -/
theorem exists_eq_wrapN {x : LimbVec} (h : canonical c x = true) : ∃ z, x = wrapN c z :=
  ⟨sval c x, (wrapN_sval c h).symm⟩

theorem minInt_eq_neg_maxInt : minInt c = -maxInt c - 1 := by
  rw [minInt, maxInt]
  ring

theorem two_pow_N_eq_maxInt : (2 ^ c.N : Int) = 2 * (maxInt c + 1) := by
  have hN : (2 ^ c.N : Int) = 2 * 2 ^ (c.N - 1) := by exact_mod_cast two_pow_N_eq c
  rw [hN, maxInt, sub_add_cancel]

theorem maxInt_pos : 0 < maxInt c := by
  have hN := c.four_le_N
  have hpow : (1 : Int) < 2 ^ (c.N - 1) := one_lt_pow₀ (by decide) (by omega)
  rw [maxInt]
  omega

/-- An integer less than one modulus outside the range wraps once, to the other side. -/
theorem sval_wrapN_of_near {z : Int} (hlow : minInt c - 2 ^ c.N ≤ z) (hhigh : z ≤ maxInt c + 2 ^ c.N) :
    sval c (wrapN c z) =
      if maxInt c < z then z - 2 ^ c.N else if z < minInt c then z + 2 ^ c.N else z := by
  have hN := two_pow_N_eq_maxInt c
  have hmin := minInt_eq_neg_maxInt c
  have hrange {y : Int} (hy : y ≡ z [ZMOD 2 ^ c.N]) (hymin : minInt c ≤ y) (hymax : y ≤ maxInt c) :
      sval c (wrapN c z) = y := by
    rw [← wrapN_congr c hy, sval_wrapN_of_mem_range c hymin hymax]
  split
  · exact hrange (by simp [Int.modEq_iff_dvd]) (by omega) (by omega)
  · split
    · exact hrange (by simp [Int.modEq_iff_dvd]) (by omega) (by omega)
    · exact hrange rfl (by omega) (by omega)

/-! ## The additive engine (42_additive.md R122, R123, R125) -/

theorem add_eq_wrapN {a b : LimbVec} (ha : isLimbVec c a = true) (hb : isLimbVec c b = true) :
    add c a b = wrapN c (sval c a + sval c b) :=
  eq_wrapN_of_modEq c (add_canonical c ha hb) (sval_add_modEq c ha hb)

theorem negate_eq_wrapN {a : LimbVec} (ha : isLimbVec c a = true) : negate c a = wrapN c (-sval c a) :=
  eq_wrapN_of_modEq c (negate_canonical c ha) (sval_normN_modEq c (twosRaw_isLimbVec c a ha)
    ((natOf_twosRaw_modEq c ha).trans (natOf_modEq_sval c a).neg))

@[simp] theorem add_wrapN (y z : Int) : add c (wrapN c y) (wrapN c z) = wrapN c (y + z) := by
  rw [add_eq_wrapN c (wrapN_isLimbVec c y) (wrapN_isLimbVec c z)]
  exact wrapN_congr c ((sval_wrapN_modEq c y).add (sval_wrapN_modEq c z))

@[simp] theorem negate_wrapN (z : Int) : negate c (wrapN c z) = wrapN c (-z) := by
  rw [negate_eq_wrapN c (wrapN_isLimbVec c z)]
  exact wrapN_congr c (sval_wrapN_modEq c z).neg

@[simp] theorem sub_wrapN (y z : Int) : sub c (wrapN c y) (wrapN c z) = wrapN c (y - z) := by
  rw [sub, negate_wrapN, add_wrapN, sub_eq_add_neg]

theorem sub_eq_wrapN {a b : LimbVec} (ha : canonical c a = true) (hb : canonical c b = true) :
    sub c a b = wrapN c (sval c a - sval c b) := by
  rw [← sub_wrapN, wrapN_sval c ha, wrapN_sval c hb]

/-! ## Sign and magnitude, and the multiplier (40_storage_sign.md R96, 43_multiplicative.md R141) -/

theorem fromMagnitudeAndSign_eq_wrapN (m : LimbVec) (neg : Bool) :
    fromMagnitudeAndSign c m neg = wrapN c (signed neg (natOf c m)) :=
  eq_wrapN_of_modEq c (fromMagnitudeAndSign_canonical c m neg) (sval_fromMagnitudeAndSign_modEq c m neg)

theorem mul_eq_wrapN {a b : LimbVec} (ha : canonical c a = true) (hb : canonical c b = true) :
    mul c a b = wrapN c (sval c a * sval c b) :=
  eq_wrapN_of_modEq c (mul_canonical c a b) (sval_mul_modEq c ha hb)

@[simp] theorem mul_wrapN (y z : Int) : mul c (wrapN c y) (wrapN c z) = wrapN c (y * z) := by
  rw [mul_eq_wrapN c (wrapN_canonical c y) (wrapN_canonical c z)]
  exact wrapN_congr c ((sval_wrapN_modEq c y).mul (sval_wrapN_modEq c z))

/-- A magnitude has no bit at or above `N` set, so clearing the pad bits changes nothing. -/
theorem zpadN_magnitude {x : LimbVec} (h : canonical c x = true) : zpadN c (magnitude c x) = magnitude c x := by
  have hm := magnitude_isLimbVec c x (canonical_isLimbVec c h)
  obtain ⟨hl, hok⟩ := (isLimbVec_iff c _).mp hm
  obtain ⟨hzl, hzok⟩ := (isLimbVec_iff c _).mp (zpadN_isLimbVec c _ hm)
  have hlt : natOf c (magnitude c x) < 2 ^ c.N := by
    have hle := natAbs_sval_le c h
    have hpos := Nat.two_pow_pos (c.N - 1)
    rw [natOf_magnitude c h, two_pow_N_eq c]
    omega
  refine natOf_injective c hzok hok (hzl.trans hl.symm) ?_
  rw [natOf_zpadN c _ hm, uN, Nat.mod_eq_of_lt hlt]

/-! ## The most negative Value (40_storage_sign.md R98, 42_additive.md R124) -/

theorem minInt_neg : minInt c < 0 := by
  have hmin := minInt_eq_neg_maxInt c
  have hpos := maxInt_pos c
  omega

@[simp] theorem sval_wrapN_minInt : sval c (wrapN c (minInt c)) = minInt c :=
  sval_wrapN_of_mem_range c le_rfl ((minInt_neg c).le.trans (maxInt_pos c).le)

/-- `2^(N-1)` and `-2^(N-1)` are one residue modulo `2^N`. -/
theorem wrapN_neg_minInt : wrapN c (-minInt c) = wrapN c (minInt c) := by
  have hN := two_pow_N_eq_maxInt c
  have hmin := minInt_eq_neg_maxInt c
  exact wrapN_congr c (Int.modEq_iff_dvd.mpr ⟨-1, by omega⟩)

/-- `0` and `MIN` are the only Values that negation keeps. -/
theorem sval_eq_of_negate_eq_self {x : LimbVec} (hx : canonical c x = true) (h : negate c x = x) :
    sval c x = 0 ∨ sval c x = minInt c := by
  obtain ⟨hlow, hhigh⟩ := canonical_sval_bounds c hx
  have hN := two_pow_N_eq_maxInt c
  have hmin := minInt_eq_neg_maxInt c
  have hpos := maxInt_pos c
  have hmod := sval_wrapN_modEq c (-sval c x)
  rw [← negate_eq_wrapN c (canonical_isLimbVec c hx), h] at hmod
  -- twice the integer is `k` times the modulus
  obtain ⟨k, hk⟩ := hmod.symm.dvd
  have hhalf : sval c x = (maxInt c + 1) * k := by
    rw [hN] at hk
    linarith
  have hklow : -1 ≤ k := by nlinarith
  have hkhigh : k < 1 := by nlinarith
  obtain rfl | rfl : k = 0 ∨ k = -1 := by omega
  · exact .inl (by omega)
  · exact .inr (by omega)

theorem sval_negate {x : LimbVec} (hx : canonical c x = true) (hne : sval c x ≠ minInt c) :
    sval c (negate c x) = -sval c x := by
  obtain ⟨hlow, hhigh⟩ := canonical_sval_bounds c hx
  have hmin := minInt_eq_neg_maxInt c
  rw [negate_eq_wrapN c (canonical_isLimbVec c hx)]
  exact sval_wrapN_of_mem_range c (by omega) (by omega)

/-! ## The divider (44_divisive.md R153) -/

theorem sign_eq_signed {z : Int} (h : z ≠ 0) : z.sign = signed (decide (z < 0)) 1 := by
  obtain hneg | hpos := lt_or_gt_of_ne h
  · rw [Int.sign_eq_neg_one_of_neg hneg, decide_eq_true hneg]; rfl
  · rw [Int.sign_eq_one_of_pos hpos, decide_eq_false hpos.not_gt]; rfl

/-- The remainder's sign is the dividend's. -/
theorem sign_mul_natAbs_mod (a b : Int) :
    a.sign * (a.natAbs % b.natAbs : Nat) = signed (decide (a < 0)) (a.natAbs % b.natAbs) := by
  by_cases ha : a = 0
  · simp [ha, signed]
  · rw [sign_eq_signed ha, show ((a.natAbs % b.natAbs : Nat) : Int) = signed false (a.natAbs % b.natAbs) from rfl,
      signed_mul, Bool.bne_false, Nat.one_mul]

/-- The quotient's sign is the XOR of the operands' signs. -/
theorem sign_mul_sign_mul_natAbs_div {a b : Int} (hb : b ≠ 0) :
    a.sign * b.sign * (a.natAbs / b.natAbs : Nat) =
      signed (decide (a < 0) != decide (b < 0)) (a.natAbs / b.natAbs) := by
  by_cases ha : a = 0
  · simp [ha, signed]
  · rw [sign_eq_signed ha, sign_eq_signed hb,
      show ((a.natAbs / b.natAbs : Nat) : Int) = signed false (a.natAbs / b.natAbs) from rfl,
      signed_mul, signed_mul, Bool.bne_false, Nat.one_mul]

/-- A quotient that is not negative stays below `2^(N-1)`, but for `MIN` by `-1`. -/
theorem natAbs_div_lt {a b : Int} (hmin : minInt c ≤ a) (hmax : a ≤ maxInt c)
    (h : ¬ (a = minInt c ∧ b = -1)) (hsign : a < 0 ↔ b < 0) : a.natAbs / b.natAbs < 2 ^ (c.N - 1) := by
  have hpos := Nat.two_pow_pos (c.N - 1)
  rw [minInt_eq] at *
  rw [maxInt_eq] at hmax
  by_cases ha : a = -((2 ^ (c.N - 1) : Nat) : Int)
  · exact (Nat.div_lt_self (by omega) (by omega)).trans_le (by omega)
  · exact (Nat.div_le_self _ _).trans_lt (by omega)

/-- The truncated quotient of two integers of the range is in the range, but for `MIN` by `-1`. -/
theorem signed_div_bounds {a : Int} (b : Int) (hmin : minInt c ≤ a) (hmax : a ≤ maxInt c)
    (h : ¬ (a = minInt c ∧ b = -1)) :
    minInt c ≤ signed (decide (a < 0) != decide (b < 0)) (a.natAbs / b.natAbs) ∧
      signed (decide (a < 0) != decide (b < 0)) (a.natAbs / b.natAbs) ≤ maxInt c := by
  have hpos := Nat.two_pow_pos (c.N - 1)
  cases hsign : decide (a < 0) != decide (b < 0) with
  | false =>
    have hlt := natAbs_div_lt c hmin hmax h (decide_eq_decide.mp (bne_eq_false_iff_eq.mp hsign))
    generalize a.natAbs / b.natAbs = q at *
    rw [minInt_eq, maxInt_eq]
    simp only [signed, Bool.false_eq_true, if_false]
    omega
  | true =>
    have hle : a.natAbs / b.natAbs ≤ a.natAbs := Nat.div_le_self _ _
    generalize a.natAbs / b.natAbs = q at *
    rw [minInt_eq] at *
    rw [maxInt_eq] at *
    simp only [signed, if_true]
    omega

section
variable {a b : LimbVec} (ha : canonical c a = true) (hne : sval c b ≠ 0)
include ha hne

/-- The quotient is exact, but for `MIN` by `-1`. -/
theorem sval_wrapN_quotient :
    sval c (wrapN c ((sval c a).sign * (sval c b).sign * ((sval c a).natAbs / (sval c b).natAbs : Nat))) =
      if sval c a = minInt c ∧ sval c b = -1 then minInt c
      else (sval c a).sign * (sval c b).sign * ((sval c a).natAbs / (sval c b).natAbs : Nat) := by
  obtain ⟨hmin, hmax⟩ := canonical_sval_bounds c ha
  split
  next h =>
    obtain ⟨ha', hb'⟩ := h
    have hneg := minInt_neg c
    have hq : (minInt c).sign * (-1 : Int).sign * ((minInt c).natAbs / (-1 : Int).natAbs : Nat) = -minInt c := by
      rw [Int.sign_eq_neg_one_of_neg hneg, Int.natAbs_neg, Int.natAbs_one, Nat.div_one,
        Int.ofNat_natAbs_of_nonpos hneg.le]
      simp
    rw [ha', hb', hq, wrapN_neg_minInt, sval_wrapN_minInt]
  next h =>
    rw [sign_mul_sign_mul_natAbs_div hne]
    obtain ⟨hlow, hhigh⟩ := signed_div_bounds c (sval c b) hmin hmax h
    exact sval_wrapN_of_mem_range c hlow hhigh

variable (hb : canonical c b = true)
include hb

/-- R153 as an equation, with the signs as R152 gives them. -/
theorem divmod_eq_wrapN : divmod c a b = .ok
    (wrapN c ((sval c a).sign * (sval c b).sign * ((sval c a).natAbs / (sval c b).natAbs : Nat)),
      wrapN c ((sval c a).sign * ((sval c a).natAbs % (sval c b).natAbs : Nat))) := by
  obtain ⟨hq, hr⟩ := natOf_udivmod_magnitude c ha hb hne
  rw [divmod_eq_ok c a hb hne, fromMagnitudeAndSign_eq_wrapN, fromMagnitudeAndSign_eq_wrapN, hq, hr,
    isNegative_eq_decide c ha, isNegative_eq_decide c hb, sign_mul_sign_mul_natAbs_div hne, sign_mul_natAbs_mod]

theorem sval_wrapN_remainder :
    sval c (wrapN c ((sval c a).sign * ((sval c a).natAbs % (sval c b).natAbs : Nat))) =
      (sval c a).sign * ((sval c a).natAbs % (sval c b).natAbs : Nat) := by
  have hr := sval_remainder c ha hb hne (divmod_eq_wrapN c ha hne hb)
  rwa [isNegative_eq_decide c ha, ← sign_mul_natAbs_mod] at hr

end

/-! ## The obligations on Values -/

/-- Settles O26: a canonical Value is determined by its residue, and the range holds one integer of each. -/
theorem wrapNamesEachIntegerOnce : Obligations.WrapNamesEachIntegerOnce := by
  refine fun c => ⟨fun x hx => wrapN_sval c hx, fun z hmin hmax => sval_wrapN_of_mem_range c hmin hmax, fun z => ?_⟩
  obtain ⟨hlow, hhigh⟩ := sval_wrapN_bounds c z
  exact ⟨wrapN_canonical c z, hlow, hhigh, (sval_wrapN_modEq c z).symm.dvd⟩

/-- Settles O28: `twos_raw` of a negative Value undoes its pad bits, and the absolute value leaves them zero. -/
theorem magnitudeIsTheAbsoluteValue : Obligations.MagnitudeIsTheAbsoluteValue := by
  intro c x hx
  refine ⟨?_, natOf_magnitude c hx, ?_, magnitude_isLimbVec c x (canonical_isLimbVec c hx), zpadN_magnitude c hx⟩
  · rw [isNegative_eq_decide c hx, decide_eq_true_iff]
  · rw [natOf_magnitude c hx]
    exact natAbs_sval_le c hx

/-- Settles O29, by the residue of the signed number. -/
theorem signReapplicationWrapsTheSignedNumber : Obligations.SignReapplicationWrapsTheSignedNumber := by
  refine fun c m => ⟨fromMagnitudeAndSign_eq_wrapN c m false, fromMagnitudeAndSign_eq_wrapN c m true,
    fun h => ?_, fun h => ?_⟩
  · rw [fromMagnitudeAndSign_eq_wrapN]
    refine wrapN_congr c (Int.modEq_zero_iff_dvd.mpr ?_)
    exact (Int.dvd_neg).mpr (by exact_mod_cast Nat.dvd_of_mod_eq_zero h)
  · have hv := limbsOf_isLimbVec c (natOf c m % 2 ^ c.N)
    have hu := uN_lt c (limbsOf c c.L (natOf c m % 2 ^ c.N))
    rw [fromMagnitudeAndSign, if_neg Bool.false_ne_true, sval_normN c _ hv,
      sval_eq_of_uN c _ ((isLimbVec_iff c _).mp hv).2, if_neg (by rw [uN_limbsOf, Nat.mod_mod]; omega)]
    omega

/-- Settles O30: `MIN` and `-MIN` are one residue, and an integer that is congruent to its negation is 0 or `MIN`. -/
theorem mostNegativeValueNegatesToItself : Obligations.MostNegativeValueNegatesToItself := by
  intro c
  have hcan := wrapN_canonical c (minInt c)
  have hmag : natOf c (magnitude c (wrapN c (minInt c))) = 2 ^ (c.N - 1) := by
    rw [natOf_magnitude c hcan, sval_wrapN_minInt, minInt_eq, Int.natAbs_neg, Int.natAbs_natCast]
  refine ⟨?negative, hmag, ?sign, ?negate, ?fixed, fun x hx hne => sval_negate c hx hne⟩
  case negative => rw [isNegative_eq_decide c hcan, sval_wrapN_minInt, decide_eq_true (minInt_neg c)]
  case sign =>
    intro neg
    rw [fromMagnitudeAndSign_eq_wrapN, hmag]
    cases neg with
    | false =>
      rw [← wrapN_neg_minInt, minInt_eq, neg_neg]
      rfl
    | true =>
      rw [minInt_eq]
      rfl
  case negate => rw [negate_wrapN, wrapN_neg_minInt]
  case fixed =>
    intro x hx h
    refine (sval_eq_of_negate_eq_self c hx h).imp_right fun hmin => ?_
    rw [← hmin, wrapN_sval c hx]

/-! ## The obligations on arithmetic -/

/-- Settles O35: a sum of two integers of the range is less than one modulus outside it. -/
theorem addWritesTheWrappedSum : Obligations.AddWritesTheWrappedSum := by
  intro s vd va vb ha hb
  obtain ⟨halow, hahigh⟩ : minInt s.cfg ≤ s.intAt va ∧ s.intAt va ≤ maxInt s.cfg := canonical_sval_bounds s.cfg ha
  obtain ⟨hblow, hbhigh⟩ : minInt s.cfg ≤ s.intAt vb ∧ s.intAt vb ≤ maxInt s.cfg := canonical_sval_bounds s.cfg hb
  have hN := two_pow_N_eq_maxInt s.cfg
  have hmin := minInt_eq_neg_maxInt s.cfg
  refine ⟨?_, sval_wrapN_of_near s.cfg (by omega) (by omega)⟩
  rw [exec, execAdd, add_eq_wrapN s.cfg (canonical_isLimbVec s.cfg ha) (canonical_isLimbVec s.cfg hb)]
  rfl

/-- Settles O36, by the residue of `twos_raw`. -/
theorem negWritesTheWrappedNegation : Obligations.NegWritesTheWrappedNegation := by
  intro s vd va ha
  rw [exec, execNeg, negate_eq_wrapN s.cfg (canonical_isLimbVec s.cfg ha)]
  rfl

/-- Settles O37: SUB is ADD of the negation, whose residues add up to the difference. -/
theorem subWritesTheWrappedDifference : Obligations.SubWritesTheWrappedDifference := by
  refine fun s vd va vb ha hb => ⟨?_, rfl⟩
  rw [exec, execSub, sub_eq_wrapN s.cfg ha hb]
  rfl

/-- Settles O38: the engine's functions on canonical Values are those of the integers under `wrap_N`. -/
theorem additiveLaws : Obligations.AdditiveLaws := by
  intro c a b d ha hb hd
  obtain ⟨x, rfl⟩ := exists_eq_wrapN c ha
  obtain ⟨y, rfl⟩ := exists_eq_wrapN c hb
  obtain ⟨z, rfl⟩ := exists_eq_wrapN c hd
  simp only [add_wrapN, sub_wrapN, negate_wrapN, add_sub_cancel_right, sub_self, neg_neg, add_zero, true_and]
  exact ⟨by rw [add_comm], by rw [add_assoc]⟩

/-- Settles O39: the product of the magnitudes with the XOR of the signs is the product of the integers. -/
theorem mulWritesTheWrappedProduct : Obligations.MulWritesTheWrappedProduct := by
  intro s vd va vb ha hb
  rw [exec, execMul, mul_eq_wrapN s.cfg ha hb]
  rfl

/-- Settles O40: the engine's functions on canonical Values are those of the integers under `wrap_N`. -/
theorem multiplicativeLaws : Obligations.MultiplicativeLaws := by
  intro c a b d ha hb hd
  obtain ⟨x, rfl⟩ := exists_eq_wrapN c ha
  obtain ⟨y, rfl⟩ := exists_eq_wrapN c hb
  obtain ⟨z, rfl⟩ := exists_eq_wrapN c hd
  rw [fromSmallInteger_eq_wrapN c (by decide : (-2 ^ 127 : Int) ≤ 1) (by decide),
    fromSmallInteger_eq_wrapN c (by decide : (-2 ^ 127 : Int) ≤ 0) (by decide)]
  simp only [mul_wrapN, add_wrapN, mul_one, mul_zero, true_and]
  exact ⟨by rw [mul_comm], by rw [mul_assoc], by rw [mul_add]⟩

/-- R153: DIVMOD with a nonzero divisor writes quotient and remainder of the old registers. -/
theorem exec_divmod_eq {s : State} {vq vr va vb : Reg} (hne : vq ≠ vr) (ha : s.canonicalAt va = true)
    (hb : s.canonicalAt vb = true) (h0 : s.intAt vb ≠ 0) : exec (.divmod vq vr va vb) s =
      .next ((s.writeV vq (wrapN s.cfg ((s.intAt va).sign * (s.intAt vb).sign *
          ((s.intAt va).natAbs / (s.intAt vb).natAbs : Nat)))).writeV vr
        (wrapN s.cfg ((s.intAt va).sign * ((s.intAt va).natAbs % (s.intAt vb).natAbs : Nat)))) := by
  rw [exec, execDivmod, if_neg hne, divmod_eq_wrapN s.cfg ha h0 hb]
  rfl

/-- Settles O41: the truncated results are in the range, but for the quotient of `MIN` by `-1`, which is `-MIN`. -/
theorem divmodTruncatesTowardZero : Obligations.DivmodTruncatesTowardZero :=
  fun s _ _ _ _ hne ha hb h0 =>
    ⟨exec_divmod_eq hne ha hb h0, sval_wrapN_remainder s.cfg ha h0 hb, sval_wrapN_quotient s.cfg ha h0⟩

end Sys2Proof.Machine
end

section
/-! SUPPORT. The comparison of two canonical Values is the order of their integers (41_comparator.md R110, R112,
R114). -/

namespace Sys2Proof.Machine

/-! ## The order of two integers -/

theorem orderOf_add_right (a b k : Int) : orderOf (a + k) (b + k) = orderOf a b := by
  simp only [orderOf, add_lt_add_iff_right, add_left_inj]

theorem orderOf_eq_less_iff {a b : Int} : orderOf a b = .less ↔ a < b := by
  rw [orderOf]
  split
  next h => simp [h]
  next h => split <;> simp [h]

theorem orderOf_eq_equal_iff {a b : Int} : orderOf a b = .equal ↔ a = b := by
  rw [orderOf]
  split
  next h => simp [h.ne]
  next h => split <;> simp [*]

theorem orderOf_eq_greater_iff {a b : Int} : orderOf a b = .greater ↔ b < a := by
  rw [orderOf]
  split
  next h => simp [h.le]
  next h => split <;> simp <;> omega

theorem code_orderOf (a b : Int) :
    (orderOf a b).code = if a < b then 0b01 else if a = b then 0b00 else 0b10 := by
  rw [orderOf]
  split
  · rfl
  · split <;> rfl

variable (c : Config)

/-! ## `compare` (41_comparator.md R110) -/

/-- As an unsigned number a canonical Value is its integer, above it by the whole limb range if negative. -/
theorem natOf_canonical {x : LimbVec} (h : canonical c x = true) :
    (natOf c x : Int) = sval c x + if sval c x < 0 then 2 ^ (c.L * c.W) else 0 := by
  obtain ⟨hv, hn⟩ := (canonical_iff c x).mp h
  obtain ⟨-, hok⟩ := (isLimbVec_iff c x).mp hv
  have hu := uN_lt c x
  have hle := two_pow_N_le c
  have hcast : ((2 ^ (c.L * c.W) : Nat) : Int) = 2 ^ (c.L * c.W) := by push_cast; rfl
  rw [hn, bitAt_sign c x hok, sval_eq_of_uN c x hok, ← hcast]
  split
  · rw [if_neg (by omega)]
    omega
  · rw [if_pos (by omega)]
    omega

/-- R110: the sign bits decide between different signs, and between equal signs the limbs do. -/
theorem compareValues_eq_orderOf {a b : LimbVec} (ha : canonical c a = true) (hb : canonical c b = true) :
    compareValues c a b = orderOf (sval c a) (sval c b) := by
  have hlimbs := unsignedComparisonOrdersNumbers c a b (canonical_isLimbVec c ha) (canonical_isLimbVec c hb)
  rw [natOf_canonical c ha, natOf_canonical c hb] at hlimbs
  rw [compareValues, isNegative_eq_decide c ha, isNegative_eq_decide c hb, hlimbs]
  by_cases hna : sval c a < 0
  · by_cases hnb : sval c b < 0
    · simp [hna, hnb, orderOf_add_right]
    · simp [hna, hnb, orderOf_of_lt (show sval c a < sval c b by omega)]
  · by_cases hnb : sval c b < 0
    · simp [hna, hnb, orderOf_of_gt (show sval c b < sval c a by omega)]
    · simp [hna, hnb]

/-! ## The obligations on comparison -/

/-- R111: CMP writes the code of the order of the two integers. -/
theorem exec_cmp_eq {s : State} {va vb : Reg} (ha : s.canonicalAt va = true) (hb : s.canonicalAt vb = true) :
    exec (.cmp va vb) s = .next (s.setCmp (orderOf (s.intAt va) (s.intAt vb))) := by
  rw [exec_cmp, compareValues_eq_orderOf s.cfg ha hb]
  rfl

/-- Settles O32: the outcome is the order of the integers, and its code is STATUS.CMP. -/
theorem cmpSetsTheOrderOfTheIntegers : Obligations.CmpSetsTheOrderOfTheIntegers := by
  intro s va vb ha hb
  rw [exec_cmp_eq ha hb, ← code_orderOf]
  rfl

/-- Settles O33: the comparison is the order of the integers, each of which is held by one canonical Value. -/
theorem compareIsAStrictTotalOrder : Obligations.CompareIsAStrictTotalOrder := by
  intro c a b d ha hb hd
  rw [compareValues_eq_orderOf c ha ha, compareValues_eq_orderOf c ha hb, compareValues_eq_orderOf c hb ha,
    compareValues_eq_orderOf c hb hd, compareValues_eq_orderOf c ha hd]
  simp only [orderOf_eq_less_iff, orderOf_eq_equal_iff, orderOf_eq_greater_iff, true_and]
  exact ⟨lt_trans, fun h => canonical_ext c ha hb (h ▸ rfl), fun h => h ▸ rfl⟩

/-- Settles O34: a difference in the range is exact. -/
theorem compareAgreesWithTheDifference : Obligations.CompareAgreesWithTheDifference := by
  intro c a b ha hb hmin hmax
  rw [compareValues_eq_orderOf c ha hb, orderOf_eq_less_iff, sub_eq_wrapN c hb ha,
    sval_wrapN_of_mem_range c hmin hmax, sub_pos]

end Sys2Proof.Machine
end

section
/-! SUPPORT. Decimal text in both directions: the value the parser computes, the digits that repeated division by ten
gives, the length of the text, and the pseudo-command that loads a small integer (00_scope.md R9, 30_encoding.md R81,
45_construction_conversion.md R174, R180, R187, R188). -/

namespace Sys2Proof.Machine

/-! ## The canonical decimal text (45_construction_conversion.md R187) -/

/-- The sign of the canonical decimal text. -/
def signText (z : Int) : List Byte := if z < 0 then [0x2D] else []

/-- The digits of the canonical decimal text. -/
def digitText (n : Nat) : List Byte :=
  if n = 0 then [0x30] else (Nat.digits 10 n).reverse.map fun t => BitVec.ofNat 8 (0x30 + t)

theorem decimalText_eq (z : Int) : decimalText z = signText z ++ digitText z.natAbs := by
  by_cases hz : z = 0
  · subst hz
    rfl
  · rw [decimalText, if_neg hz, signText, digitText, if_neg (Int.natAbs_ne_zero.mpr hz)]

theorem signText_leadingSign (z : Int) : LeadingSign (signText z) := by
  rw [signText]
  split
  · exact .inr (.inr rfl)
  · exact .inl rfl

theorem signText_eq_minus_iff (z : Int) : signText z = [0x2D] ↔ z < 0 := by
  rw [signText]
  split <;> simp [*]

/-- The byte of a decimal digit, as a number. -/
theorem toNat_digit {t : Nat} (h : t < 10) : (BitVec.ofNat 8 (0x30 + t)).toNat = 0x30 + t := by
  rw [BitVec.toNat_ofNat, Nat.mod_eq_of_lt (by omega)]

theorem digitText_digitString (n : Nat) : DigitString (digitText n) := by
  rw [digitText]
  split
  · simp [DigitString]
  next hn =>
    refine ⟨by simpa using Nat.digits_ne_nil_iff_ne_zero.mpr hn, fun b hb => ?_⟩
    obtain ⟨t, ht, rfl⟩ := List.mem_map.mp hb
    have hlt : t < 10 := Nat.digits_lt_base (by decide) (List.mem_reverse.mp ht)
    rw [toNat_digit hlt]
    omega

/-- Horner's rule from the last digit on undoes the digits. -/
theorem decimalValue_reverse_map : ∀ ds : List Nat, (∀ t ∈ ds, t < 10) →
    decimalValue (ds.reverse.map fun t => BitVec.ofNat 8 (0x30 + t)) = Nat.ofDigits 10 ds
  | [], _ => rfl
  | t :: ds, h => by
    obtain ⟨ht, hds⟩ := List.forall_mem_cons.mp h
    have ih := decimalValue_reverse_map ds hds
    rw [decimalValue] at ih ⊢
    rw [List.reverse_cons, List.map_append, List.foldl_append, ih, Nat.ofDigits_cons, List.map_singleton,
      List.foldl_cons, List.foldl_nil, toNat_digit ht, Nat.add_sub_cancel_left, Nat.add_comm]

theorem decimalValue_digitText (n : Nat) : decimalValue (digitText n) = n := by
  rw [digitText]
  split
  next hn => rw [hn]; rfl
  next hn =>
    rw [decimalValue_reverse_map _ fun t ht => Nat.digits_lt_base (by decide) ht, Nat.ofDigits_digits]

/-! ## The parser (45_construction_conversion.md R173, R174) -/

variable (c : Config)

/-- The digit loop from `n` on is Horner's rule under `wrap_N`. -/
theorem parseDigits_wrapN : ∀ (bs : List Byte) (n : Nat), bs.all isDigit = true →
    parseDigits c (wrapN c n) bs =
      some (wrapN c (bs.foldl (fun n b => 10 * n + (b.toNat - 0x30)) n : Nat))
  | [], _, _ => rfl
  | b :: bs, n, h => by
    obtain ⟨hb, hbs⟩ := Bool.and_eq_true_iff.mp h
    have hten : fromSmallInteger c 10 = wrapN c 10 := fromSmallInteger_eq_wrapN c (by decide) (by decide)
    have hdigit : fromSmallInteger c (digitValue b) = wrapN c (digitValue b) := by
      have hlt := b.isLt
      exact fromSmallInteger_eq_wrapN c (by omega) (by rw [digitValue]; omega)
    rw [parseDigits, if_pos hb, hten, hdigit, mul_wrapN, add_wrapN, List.foldl_cons,
      ← parseDigits_wrapN bs _ hbs]
    congr 2
    rw [digitValue]
    push_cast
    ring

/-- A leading sign is told from the digits by its byte. -/
theorem splitSign_append {sign digits : List Byte} (hs : LeadingSign sign) (hd : DigitString digits) :
    splitSign (sign ++ digits) = (decide (sign = [0x2D]), digits) := by
  obtain rfl | rfl | rfl := hs
  · obtain ⟨hne, hrange⟩ := hd
    cases digits with
    | nil => exact absurd rfl hne
    | cons b bs =>
      obtain ⟨hlow, -⟩ := hrange b List.mem_cons_self
      have hminus : b ≠ minusByte := by rintro rfl; exact absurd hlow (by decide)
      have hplus : b ≠ plusByte := by rintro rfl; exact absurd hlow (by decide)
      rw [List.nil_append, splitSign, if_neg hminus, if_neg hplus]
      rfl
  · rfl
  · rfl

/-- R174: the decimal value under `wrap_N`, negated for a minus sign. -/
theorem fromText_append {sign digits : List Byte} (hs : LeadingSign sign) (hd : DigitString digits) :
    fromText c (sign ++ digits) = some (wrapN c
      (if sign = [0x2D] then -(decimalValue digits : Int) else decimalValue digits)) := by
  obtain ⟨hne, hall⟩ := (digitString_iff digits).mp hd
  have hloop : parseDigits c (wrapN c 0) digits = some (wrapN c (decimalValue digits)) :=
    parseDigits_wrapN c digits 0 hall
  simp only [fromText, splitSign_append hs hd, if_neg hne, hloop, decide_eq_true_iff, negate_wrapN,
    apply_ite (wrapN c)]

/-- The parser reads the canonical decimal text of an integer back, under `wrap_N`. -/
theorem fromText_decimalText (z : Int) : fromText c (decimalText z) = some (wrapN c z) := by
  rw [decimalText_eq, fromText_append c (signText_leadingSign z) (digitText_digitString _),
    decimalValue_digitText]
  simp only [signText_eq_minus_iff]
  congr 2
  split <;> omega

/-! ## The digits that FMT writes (45_construction_conversion.md R180) -/

theorem digitByte_eq (t : Nat) : digitByte t = BitVec.ofNat 8 (0x30 + t) := (BitVec.ofNat_add 0x30 t).symm

/-- Repeated division by ten stacks up the digits, the last one first. -/
theorem peelDigits_eq : ∀ (fuel : Nat) (m : LimbVec) (ds : List Nat), isLimbVec c m = true →
    natOf c m < 2 ^ c.N → natOf c m < 10 ^ fuel →
    peelDigits c fuel m ds = (Nat.digits 10 (natOf c m)).reverse ++ ds
  | 0, m, ds, _, _, hfuel => by
    have h0 : natOf c m = 0 := by simpa using hfuel
    simp [peelDigits, h0]
  | fuel + 1, m, ds, hm, hN, hfuel => by
    rw [peelDigits]
    split
    next h0 => simp [h0]
    next h0 =>
      have hten : 0 < natOf c (limbsOf c c.L 10) := by rw [natOf_ten]; decide
      obtain ⟨hq, -, hqn, hrn⟩ := udivmod_spec c hm hN hten
      rw [natOf_ten] at hqn hrn
      simp only
      rw [peelDigits_eq fuel _ _ hq (by omega) (by rw [hqn]; omega), hqn, hrn,
        Nat.digits_def' (by decide) (Nat.pos_of_ne_zero h0), List.reverse_cons, List.append_assoc,
        List.singleton_append]

theorem all_zero_iff {x : LimbVec} (h : canonical c x = true) : x.all (· == 0) = true ↔ sval c x = 0 := by
  obtain ⟨hl, -⟩ := (isLimbVec_iff c x).mp (canonical_isLimbVec c h)
  have hreplicate : x.all (· == 0) = true ↔ x = List.replicate c.L 0 := by
    simp [List.eq_replicate_iff, hl]
  rw [hreplicate]
  constructor
  · rintro rfl
    exact sval_zeroLimbs c
  · intro h0
    exact canonical_ext c h (zeroLimbs_canonical c) (by rw [h0, sval_zeroLimbs])

theorem two_pow_pred_lt : 2 ^ (c.N - 1) < 10 ^ c.N := by
  have hN := two_pow_N_eq c
  have hpos := Nat.two_pow_pos (c.N - 1)
  have hle : 2 ^ c.N ≤ 10 ^ c.N := Nat.pow_le_pow_left (by decide) c.N
  omega

theorem toText_eq_decimalText {x : LimbVec} (h : canonical c x = true) : toText c x = decimalText (sval c x) := by
  rw [toText]
  split
  next h0 =>
    rw [(all_zero_iff c h).mp h0]
    rfl
  next h0 =>
    have hne : sval c x ≠ 0 := mt (all_zero_iff c h).mpr h0
    have hle := natAbs_sval_le c h
    have hN := two_pow_N_eq c
    have hpos := Nat.two_pow_pos (c.N - 1)
    have hfuel := two_pow_pred_lt c
    have hmag := natOf_magnitude c h
    rw [peelDigits_eq c (c.N + 1) _ [] (magnitude_isLimbVec c x (canonical_isLimbVec c h)) (by omega)
      (by rw [pow_succ]; omega), hmag, isNegative_eq_decide c h, decimalText, if_neg hne]
    simp only [List.append_nil, decide_eq_true_iff, funext digitByte_eq]
    split <;> rfl

/-! ## The length of the text (00_scope.md R9) -/

theorem decimalLength_eq : ∀ fuel n : Nat, n < 10 ^ fuel → decimalLength fuel n = (Nat.digits 10 n).length
  | 0, n, h => by
    have h0 : n = 0 := by simpa using h
    simp [decimalLength, h0]
  | fuel + 1, n, h => by
    rw [decimalLength]
    split
    next h0 => simp [h0]
    next h0 =>
      rw [decimalLength_eq fuel (n / 10) (by omega), Nat.digits_def' (by decide) (Nat.pos_of_ne_zero h0),
        List.length_cons, Nat.add_comm]

/-- The digits of a magnitude are at most `DMAX(N)`, a zero being one digit too. -/
theorem length_digitText_le {n : Nat} (h : n ≤ 2 ^ (c.N - 1)) : (digitText n).length ≤ dmax c.N := by
  have hmono := Nat.le_length_digits_le 10 n _ h
  have hpos : 0 < (Nat.digits 10 (2 ^ (c.N - 1))).length :=
    List.length_pos_iff.mpr (Nat.digits_ne_nil_iff_ne_zero.mpr (Nat.two_pow_pos _).ne')
  rw [dmax, decimalLength_eq c.N _ (two_pow_pred_lt c), digitText]
  split
  · exact hpos
  · simpa using hmono

theorem length_decimalText_le {x : LimbVec} (h : canonical c x = true) :
    (decimalText (sval c x)).length ≤ 1 + dmax c.N := by
  have hdigits := length_digitText_le c (natAbs_sval_le c h)
  have hsign : (signText (sval c x)).length ≤ 1 := by
    rw [signText]
    split <;> simp
  rw [decimalText_eq, List.length_append]
  omega

/-! ## PARSE and FMT of canonical Values -/

section
variable {s : State} {vd va : Reg}

theorem exec_parse_of_fromText {x : LimbVec} (hfit : s.tlen.toNat ≤ s.cfg.TCAP)
    (hx : fromText s.cfg s.text = some x) : exec (.parse vd) s = .next ((s.writeV vd x).setPerr false) := by
  rw [exec_parse, execParse_of_fits s vd hfit, hx]

/-- FMT of a canonical Value writes its decimal text, which fits. -/
theorem exec_fmt_completes (ha : s.canonicalAt va = true) : ∃ t, exec (.fmt va) s = .next t ∧
    t = { s with txt := t.txt, tlen := BitVec.ofNat 16 (decimalText (s.intAt va)).length } ∧
    (decimalText (s.intAt va)).length ≤ s.cfg.TCAP ∧
    (∀ k (h : k < (decimalText (s.intAt va)).length), t.txt.read k = (decimalText (s.intAt va))[k]) ∧
    ∀ k, (decimalText (s.intAt va)).length ≤ k → t.txt.read k = s.txt.read k := by
  have htext : toText s.cfg (s.readV va) = decimalText (s.intAt va) := toText_eq_decimalText s.cfg ha
  have hlen : (decimalText (s.intAt va)).length ≤ s.cfg.TCAP :=
    (length_decimalText_le s.cfg ha).trans s.cfg.text_fits
  have hlisted := toText_ne_unlistedByte s.cfg (s.readV va)
  rw [htext] at hlisted
  obtain ⟨t, ht⟩ := State.writeTextResult_ok hlen
  obtain ⟨hframe, -, hrest, hbytes⟩ := State.writeTextResult_spec hlisted ht
  exact ⟨t, exec_fmt_iff.mpr (htext ▸ ht), hframe, hlen, hbytes, hrest⟩

/-- The text is what stands in the first TLEN bytes. -/
theorem State.text_eq_of_read {out : List Byte} (hlen : s.tlen.toNat = out.length)
    (hread : ∀ k (h : k < out.length), s.txt.read k = out[k]) : s.text = out := by
  refine List.ext_getElem (by simp [State.text, hlen]) fun k _ hk => ?_
  simpa [State.text] using hread k hk

/-- R188: the text that FMT leaves is the one the parser reads the Value back from. -/
theorem exec_fmt_text (ha : s.canonicalAt va = true) : ∃ m n,
    exec (.fmt va) s = .next { s with txt := m, tlen := n } ∧ n.toNat ≤ s.cfg.TCAP ∧
    fromText s.cfg (State.text { s with txt := m, tlen := n }) = some (s.readV va) := by
  obtain ⟨t, h, ht, hlen, hbytes, -⟩ := exec_fmt_completes ha
  have hcap := s.cfg.TCAP_le
  have hn : (BitVec.ofNat 16 (decimalText (s.intAt va)).length).toNat = (decimalText (s.intAt va)).length := by
    rw [BitVec.toNat_ofNat, Nat.mod_eq_of_lt (by omega)]
  refine ⟨t.txt, _, h.trans (congrArg _ ht), hn.trans_le hlen, ?_⟩
  rw [State.text_eq_of_read (s := { s with
    txt := t.txt, tlen := BitVec.ofNat 16 (decimalText (s.intAt va)).length }) hn hbytes, fromText_decimalText]
  exact congrArg some (wrapN_sval s.cfg ha)

end

/-! ## The pseudo-command LDI (30_encoding.md R81) -/

/-- In the running state a write to a word of IMM stores it. -/
theorem after_write_imm {s : State} {r : BitVec 32} {i : Fin 4} (hf : s.status.fault = false)
    (hr : hostReg s.cfg r = .imm i) (m : BitVec 128) (d : HostWord) (rest : List HostAction) (k : Nat) :
    State.after (k + 1) { s with pending := .write r d :: rest, imm := m } =
      State.after k { s with pending := rest, imm := setImmWord m i d } :=
  State.after_succ ((step_write (s := { s with pending := .write r d :: rest, imm := m }) rfl).trans
    (State.hostWrite_imm (s := { s with pending := rest, imm := m }) hf hr rfl)) k

/-- In the running state the next host write of a command's word runs the command. -/
theorem step_scriptCommand {s : State} {i : Instr} (hf : s.status.fault = false) (hi : i.wellFormed = true)
    (rest : List HostAction) :
    step { s with pending := scriptCommand i :: rest } = exec i { s with pending := rest } :=
  step_of_decode (rest := rest) hf rfl (decodeOfEncodeGivesTheCommandBack i hi)

/-- The four writes of IMM leave nothing of its old contents. -/
theorem setImmWord_all (m p : BitVec 128) :
    setImmWord (setImmWord (setImmWord (setImmWord m 0 (immWord p 0)) 1 (immWord p 1)) 2 (immWord p 2)) 3
      (immWord p 3) = p := by
  refine eq_of_immWord_eq fun j => ?_
  simp only [immWord_setImmWord]
  fin_cases j <;> rfl

/-- The four writes of IMM in a host script. -/
theorem after_scriptImm {s : State} (hf : s.status.fault = false) (i : Int) (rest : List HostAction) (k : Nat) :
    State.after (k + 4) { s with pending := scriptImm i ++ rest } =
      State.after k { s with pending := rest, imm := BitVec.ofInt 128 i } := by
  rw [← setImmWord_all s.imm (BitVec.ofInt 128 i)]
  exact (after_write_imm hf rfl s.imm _ _ (k + 3)).trans <| (after_write_imm hf rfl _ _ _ (k + 2)).trans <|
    (after_write_imm hf rfl _ _ _ (k + 1)).trans (after_write_imm hf rfl _ _ _ k)

/-! ## The obligations on construction and conversion -/

/-- Settles O45: Horner's rule under `wrap_N` for the digits, negated for a minus sign. -/
theorem parseWritesTheWrappedDecimalValue : Obligations.ParseWritesTheWrappedDecimalValue := by
  intro s vd sign digits hfit htext hs hd
  exact exec_parse_of_fromText hfit (by rw [htext, fromText_append s.cfg hs hd])

/-- Settles O46: the digit loop gives the decimal digits, of which there are at most `DMAX(N)`. -/
theorem fmtWritesTheDecimalText : Obligations.FmtWritesTheDecimalText := by
  intro s va ha
  obtain ⟨t, h, ht, hlen, hbytes, hrest⟩ := exec_fmt_completes ha
  exact ⟨t, h, ht, length_decimalText_le s.cfg ha, hlen, hbytes, hrest⟩

/-- Settles O47: the text that PARSE reads is the one FMT wrote, and the parser reads its integer back. -/
theorem fmtThenParseReproducesTheValue : Obligations.FmtThenParseReproducesTheValue := by
  intro s va vd rest hinv hf hp
  obtain ⟨hcan, -⟩ := s.inv_iff.mp hinv
  obtain ⟨m, n, hfmt, hfit, htext⟩ := exec_fmt_text
    (s := { s with pending := scriptCommand (.parse vd) :: rest }) (hcan va)
  have hfirst : step s = .next { s with pending := scriptCommand (.parse vd) :: rest, txt := m, tlen := n } :=
    (step_of_decode hf hp (decodeOfEncodeGivesTheCommandBack (.fmt va) rfl)).trans hfmt
  have hsecond : step { s with pending := scriptCommand (.parse vd) :: rest, txt := m, tlen := n } =
      .next ((State.writeV { s with pending := rest, txt := m, tlen := n } vd (s.readV va)).setPerr false) :=
    (step_scriptCommand (s := { s with txt := m, tlen := n }) hf rfl rest).trans
      (exec_parse_of_fromText (s := { s with pending := rest, txt := m, tlen := n }) hfit htext)
  exact ⟨_, State.after_two hfirst hsecond, State.readV_writeV_same _ _ _, rfl, hf, rfl,
    fun r hr => State.readV_writeV_ne _ _ _ _ (by simpa using hr)⟩

/-- Settles O48: the four writes put the pattern of the integer into IMM, which LDI reads back as the integer. -/
theorem pseudoLdiLoadsItsInteger : Obligations.PseudoLdiLoadsItsInteger := by
  intro s vd i hf hmin hmax
  have hi : (BitVec.ofInt 128 i).toInt = i := BitVec.toInt_ofInt_eq_self (by decide) hmin (by omega)
  have hldi : step { s with pending := scriptCommand (.ldi vd) :: s.pending, imm := BitVec.ofInt 128 i } =
      .next (State.writeV { s with imm := BitVec.ofInt 128 i } vd (wrapN s.cfg i)) := by
    rw [step_scriptCommand (s := { s with imm := BitVec.ofInt 128 i }) hf rfl, exec_ldi, hi]
  refine ⟨State.writeV { s with imm := BitVec.ofInt 128 i } vd (wrapN s.cfg i), ?_,
    State.readV_writeV_same _ _ _, hi, fun r hr => State.readV_writeV_ne _ _ _ _ (by simpa using hr), rfl, rfl, rfl,
    rfl⟩
  rw [State.withScript, scriptLdi, List.append_assoc, after_scriptImm hf i _ 1]
  exact State.after_succ hldi 0

end Sys2Proof.Machine
end

section
/-! SUPPORT. Two units that differ in the limb width alone, under every command and every host action
(00_scope.md R6). -/

namespace Sys2Proof.Machine

/-! ## Updates of two units alike -/

/-- The integer that `wrap_N` gives depends on the configuration by `N` alone. -/
theorem sval_wrapN_of_N_eq {c d : Config} (h : d.N = c.N) (z : Int) : sval d (wrapN d z) = sval c (wrapN c z) := by
  obtain ⟨hmin, hmax⟩ := sval_wrapN_bounds c z
  refine sval_eq_of_modEq d (wrapN_ok d z) ((sval_wrapN_modEq d z).trans ?_) (by rwa [minInt, h]) (by rwa [maxInt, h])
  rw [h]
  exact (sval_wrapN_modEq c z).symm

theorem State.intAt_writeV (s : State) (r r' : Reg) (x : LimbVec) :
    (s.writeV r x).intAt r' = if r' = r then sval s.cfg x else s.intAt r' := by
  split
  next h => rw [h, State.intAt, State.readV_writeV_same, State.writeV_cfg]
  next h => rw [State.intAt, State.readV_writeV_ne _ _ _ _ h, State.writeV_cfg, State.intAt]

theorem SameButWidth.refl (s : State) : SameButWidth s s := ⟨rfl, rfl, fun _ => rfl, rfl, rfl, rfl, rfl, rfl, rfl⟩

section
variable {s t : State} (h : SameButWidth s t)
include h

theorem SameButWidth.setStatus (f : Status → Status) :
    SameButWidth { s with status := f s.status } { t with status := f t.status } := by
  obtain ⟨hN, hcap, hint, himm, htlen, htxt, hstatus, hpending, hreturned⟩ := h
  exact ⟨hN, hcap, hint, himm, htlen, htxt, congrArg f hstatus, hpending, hreturned⟩

theorem SameButWidth.setCmp (o : Comparison) : SameButWidth (s.setCmp o) (t.setCmp o) :=
  h.setStatus fun x => { x with cmp := o.code }

theorem SameButWidth.setPerr (b : Bool) : SameButWidth (s.setPerr b) (t.setPerr b) :=
  h.setStatus fun x => { x with perr := b }

theorem SameButWidth.raiseFault (e : Cause) : SameButWidth (s.raiseFault e) (t.raiseFault e) :=
  h.setStatus fun x => { x with fault := true, fcause := e.code }

theorem SameButWidth.setImm (m : BitVec 128) : SameButWidth { s with imm := m } { t with imm := m } := by
  obtain ⟨hN, hcap, hint, -, htlen, htxt, hstatus, hpending, hreturned⟩ := h
  exact ⟨hN, hcap, hint, rfl, htlen, htxt, hstatus, hpending, hreturned⟩

theorem SameButWidth.setTlen (n : BitVec 16) : SameButWidth (s.setTlen n) (t.setTlen n) := by
  obtain ⟨hN, hcap, hint, himm, -, htxt, hstatus, hpending, hreturned⟩ := h
  exact ⟨hN, hcap, hint, himm, rfl, htxt, hstatus, hpending, hreturned⟩

theorem SameButWidth.setTxt (m : Memory) : SameButWidth { s with txt := m } { t with txt := m } := by
  obtain ⟨hN, hcap, hint, himm, htlen, -, hstatus, hpending, hreturned⟩ := h
  exact ⟨hN, hcap, hint, himm, htlen, rfl, hstatus, hpending, hreturned⟩

theorem SameButWidth.setPending (p : List HostAction) :
    SameButWidth { s with pending := p } { t with pending := p } := by
  obtain ⟨hN, hcap, hint, himm, htlen, htxt, hstatus, -, hreturned⟩ := h
  exact ⟨hN, hcap, hint, himm, htlen, htxt, hstatus, rfl, hreturned⟩

theorem SameButWidth.setReturned (q : List HostWord) :
    SameButWidth { s with returned := q } { t with returned := q } := by
  obtain ⟨hN, hcap, hint, himm, htlen, htxt, hstatus, hpending, -⟩ := h
  exact ⟨hN, hcap, hint, himm, htlen, htxt, hstatus, hpending, rfl⟩

/-- A register that takes the Value of one integer in both units. -/
theorem SameButWidth.writeV_wrapN (r : Reg) {y z : Int} (hyz : z = y) :
    SameButWidth (s.writeV r (wrapN s.cfg y)) (t.writeV r (wrapN t.cfg z)) := by
  obtain ⟨hN, hcap, hint, himm, htlen, htxt, hstatus, hpending, hreturned⟩ := h
  refine ⟨hN, hcap, fun r' => ?_, himm, htlen, htxt, hstatus, hpending, hreturned⟩
  rw [State.intAt_writeV, State.intAt_writeV, hyz, sval_wrapN_of_N_eq hN, hint]

theorem SameButWidth.applyReset : SameButWidth s.applyReset t.applyReset := by
  obtain ⟨hN, hcap, -, -, -, -, -, hpending, hreturned⟩ := h
  refine ⟨hN, hcap, fun r => ?_, rfl, rfl, rfl, rfl, hpending, hreturned⟩
  have hzero (c : Config) : sval c ((State.resetOf c).readV r) = 0 := by
    rw [State.readV_resetOf, sval_zeroLimbs]
  exact (hzero t.cfg).trans (hzero s.cfg).symm

theorem SameButWidth.text : t.text = s.text := by
  obtain ⟨-, -, -, -, htlen, htxt, -⟩ := h
  rw [State.text, htlen, htxt, State.text]

theorem SameButWidth.hostReg (r : BitVec 32) : hostReg t.cfg r = hostReg s.cfg r := by
  obtain ⟨-, hcap, -⟩ := h
  simp only [Machine.hostReg, hcap]

theorem SameButWidth.hostRead (r : BitVec 32) : t.hostRead r = s.hostRead r := by
  have hreg := h.hostReg r
  obtain ⟨-, -, -, himm, htlen, htxt, hstatus, -⟩ := h
  simp only [State.hostRead, hreg, himm, htlen, htxt, hstatus]

end

/-! ## Every command and every host action in two units alike -/

/-- Both outcomes are next states, and these differ at most in the limb width. -/
def BothGoOnAlike (o o' : Host.Outcome State Fault Refusal) : Prop :=
  ∃ s' t', o = .next s' ∧ o' = .next t' ∧ SameButWidth s' t'

theorem exec_parse_alike {s t : State} (h : SameButWidth s t) (vd : Reg) :
    BothGoOnAlike (exec (.parse vd) s) (exec (.parse vd) t) := by
  obtain ⟨-, hcap, -, -, htlen, -⟩ := id h
  have htext := h.text
  obtain hfit | hlong := le_or_gt s.tlen.toNat s.cfg.TCAP
  · have hfit' : t.tlen.toNat ≤ t.cfg.TCAP := by rwa [htlen, hcap]
    by_cases hgood : TextGrammar s.text
    · obtain ⟨sign, digits, hsplit, hsign, hdigits⟩ := hgood
      have hvalue (c : Config) := fromText_append c hsign hdigits
      rw [← hsplit] at hvalue
      exact ⟨_, _, exec_parse_of_fromText hfit (hvalue _), exec_parse_of_fromText hfit' (htext ▸ hvalue _),
        (h.writeV_wrapN vd rfl).setPerr false⟩
    · exact ⟨_, _, exec_parse_malformed hfit hgood, exec_parse_malformed hfit' (htext ▸ hgood), h.setPerr true⟩
  · exact ⟨_, _, execParse_beyond s vd hlong, execParse_beyond t vd (by rwa [htlen, hcap]), h.raiseFault .textLength⟩

section
variable {s t : State} (hs : s.inv = true) (ht : t.inv = true) (h : SameButWidth s t)
include hs ht h

theorem exec_divmod_alike (vq vr va vb : Reg) :
    BothGoOnAlike (exec (.divmod vq vr va vb) s) (exec (.divmod vq vr va vb) t) := by
  obtain ⟨hcs, -⟩ := s.inv_iff.mp hs
  obtain ⟨hct, -⟩ := t.inv_iff.mp ht
  obtain ⟨-, -, hint, -⟩ := id h
  by_cases hne : vq = vr
  · subst hne
    exact ⟨_, _, exec_divmod_same, exec_divmod_same, h.raiseFault .illegalCommand⟩
  by_cases h0 : s.intAt vb = 0
  · exact ⟨_, _, exec_divmod_by_zero hne (hcs vb) h0, exec_divmod_by_zero hne (hct vb) ((hint vb).trans h0),
      h.raiseFault .divisionByZero⟩
  · refine ⟨_, _, exec_divmod_eq hne (hcs va) (hcs vb) h0,
      exec_divmod_eq hne (hct va) (hct vb) (hint vb ▸ h0), ?_⟩
    exact (h.writeV_wrapN vq (by rw [hint, hint])).writeV_wrapN vr (by rw [hint, hint])

theorem exec_fmt_alike (va : Reg) : BothGoOnAlike (exec (.fmt va) s) (exec (.fmt va) t) := by
  obtain ⟨hcs, -⟩ := s.inv_iff.mp hs
  obtain ⟨hct, -⟩ := t.inv_iff.mp ht
  obtain ⟨-, -, hint, -, -, htxt, -⟩ := id h
  obtain ⟨s', hexec, hs', -, hbytes, hrest⟩ := exec_fmt_completes (hcs va)
  obtain ⟨t', hexec', ht', -, hbytes', hrest'⟩ := exec_fmt_completes (hct va)
  obtain ⟨-, hwf, -⟩ := s'.inv_iff.mp (exec_keeps_inv hs hexec)
  obtain ⟨-, hwf', -⟩ := t'.inv_iff.mp (exec_keeps_inv ht hexec')
  rw [hint va] at ht' hbytes' hrest'
  have hmem : t'.txt = s'.txt := by
    refine Memory.eq_of_read _ _ hwf' hwf fun k => ?_
    obtain hk | hk := lt_or_ge k (decimalText (s.intAt va)).length
    · rw [hbytes' k hk, hbytes k hk]
    · rw [hrest' k hk, hrest k hk, htxt]
  rw [hmem] at ht'
  exact ⟨_, _, hexec.trans (congrArg _ hs'), hexec'.trans (congrArg _ ht'), (h.setTxt s'.txt).setTlen _⟩

theorem exec_alike (i : Instr) : BothGoOnAlike (exec i s) (exec i t) := by
  obtain ⟨hcs, -⟩ := s.inv_iff.mp hs
  obtain ⟨hct, -⟩ := t.inv_iff.mp ht
  obtain ⟨-, -, hint, himm, -⟩ := id h
  cases i with
  | cmp va vb =>
    refine ⟨_, _, exec_cmp_eq (hcs va) (hcs vb), exec_cmp_eq (hct va) (hct vb), ?_⟩
    rw [hint, hint]
    exact h.setCmp _
  | add vd va vb =>
    obtain ⟨hadd, -⟩ := addWritesTheWrappedSum s vd va vb (hcs va) (hcs vb)
    obtain ⟨hadd', -⟩ := addWritesTheWrappedSum t vd va vb (hct va) (hct vb)
    exact ⟨_, _, hadd, hadd', h.writeV_wrapN vd (by rw [hint, hint])⟩
  | neg vd va =>
    exact ⟨_, _, negWritesTheWrappedNegation s vd va (hcs va), negWritesTheWrappedNegation t vd va (hct va),
      h.writeV_wrapN vd (by rw [hint])⟩
  | sub vd va vb =>
    obtain ⟨hsub, -⟩ := subWritesTheWrappedDifference s vd va vb (hcs va) (hcs vb)
    obtain ⟨hsub', -⟩ := subWritesTheWrappedDifference t vd va vb (hct va) (hct vb)
    exact ⟨_, _, hsub, hsub', h.writeV_wrapN vd (by rw [hint, hint])⟩
  | mul vd va vb =>
    exact ⟨_, _, mulWritesTheWrappedProduct s vd va vb (hcs va) (hcs vb),
      mulWritesTheWrappedProduct t vd va vb (hct va) (hct vb), h.writeV_wrapN vd (by rw [hint, hint])⟩
  | divmod vq vr va vb => exact exec_divmod_alike hs ht h vq vr va vb
  | ldi vd => exact ⟨_, _, exec_ldi s vd, exec_ldi t vd, h.writeV_wrapN vd (by rw [himm])⟩
  | parse vd => exact exec_parse_alike h vd
  | fmt va => exact exec_fmt_alike hs ht h va

theorem writeCmd_alike (w : HostWord) : BothGoOnAlike (s.writeCmd w) (t.writeCmd w) := by
  cases hw : decode w with
  | error e => exact ⟨_, _, State.writeCmd_of_error hw, State.writeCmd_of_error hw, h.raiseFault .illegalCommand⟩
  | ok i =>
    rw [State.writeCmd, State.writeCmd, hw]
    exact exec_alike hs ht h i

theorem hostWrite_alike (r : BitVec 32) (d : HostWord) : BothGoOnAlike (s.hostWrite r d) (t.hostWrite r d) := by
  obtain ⟨-, -, -, himm, -, htxt, hstatus, -⟩ := id h
  have hreg := h.hostReg r
  cases hf : s.status.fault with
  | true => exact ⟨_, _, State.hostWrite_fault hf, State.hostWrite_fault (hstatus ▸ hf), h⟩
  | false =>
    have hf' : t.status.fault = false := hstatus ▸ hf
    cases hr : hostReg s.cfg r with
    | cmd =>
      rw [(hostReg_eq_cmd s.cfg r).mp hr, State.hostWrite_cmd hf, State.hostWrite_cmd hf']
      exact writeCmd_alike hs ht h d
    | status => exact ⟨_, _, State.hostWrite_status hr, State.hostWrite_status (hreg.trans hr), h⟩
    | tlen =>
      exact ⟨_, _, State.hostWrite_tlen hf hr, State.hostWrite_tlen hf' (hreg.trans hr), h.setTlen _⟩
    | imm i =>
      exact ⟨_, _, State.hostWrite_imm hf hr rfl, State.hostWrite_imm hf' (hreg.trans hr) (by rw [himm]),
        h.setImm _⟩
    | txt i =>
      exact ⟨_, _, State.hostWrite_txt hf hr rfl, State.hostWrite_txt hf' (hreg.trans hr) (by rw [htxt]),
        h.setTxt _⟩
    | unmapped => exact ⟨_, _, State.hostWrite_unmapped hr, State.hostWrite_unmapped (hreg.trans hr), h⟩

theorem perform_alike (a : HostAction) : BothGoOnAlike (s.perform a) (t.perform a) := by
  cases a with
  | write r d => exact hostWrite_alike hs ht h r d
  | read r =>
    obtain ⟨-, -, -, -, -, -, -, -, hreturned⟩ := id h
    refine ⟨_, _, rfl, rfl, ?_⟩
    rw [h.hostRead, hreturned]
    exact h.setReturned _
  | reset => exact ⟨_, _, rfl, rfl, h.applyReset⟩

end

/-! ## The obligations on the whole machine -/

/-- Settles O59: every command is a function of the integers of the registers, by the closed forms of the engines and of
the conversions, and no other part of the machine looks at a limb. -/
theorem noResultDependsOnTheLimbWidth : Obligations.NoResultDependsOnTheLimbWidth := by
  intro s t hs ht h
  obtain ⟨-, -, -, -, -, -, -, hpending, -⟩ := id h
  cases hp : s.pending with
  | nil => exact ⟨s, t, step_idle s hp, step_idle t (hpending.trans hp), h⟩
  | cons a rest =>
    rw [step_pending s a rest hp, step_pending t a rest (hpending.trans hp)]
    exact perform_alike (State.inv_setPending hs rest) (State.inv_setPending ht rest) (h.setPending rest) a

/-- Settles O58: the step from a state alike to itself has a next state. -/
theorem stepNeverStops : Obligations.StepNeverStops := by
  intro s hs
  obtain ⟨s', -, h, -⟩ := noResultDependsOnTheLimbWidth s s hs hs (SameButWidth.refl s)
  exact ⟨s', h⟩

end Sys2Proof.Machine
end
